-- ==== Sys2Proof/Word.lean ====
section
/-!
DEFINITION. The word types of the HLL sketch block (00_scope.md R6, R7; 10_state.md R20): every value is unsigned and
bit 0 is the least significant bit.
-/

namespace Sys2Proof

/-- A command word, a result word or a binary64 encoding (30_encoding.md R60, 10_state.md R20, 00_scope.md R8). -/
abbrev Word64 := BitVec 64

/-- A hash word, the accumulator or the seed (00_scope.md R6 `HASH_W`, 10_state.md R20). -/
abbrev Word32 := BitVec 32

/-- One element byte (30_encoding.md R61 `BYTE8`). -/
abbrev Byte := BitVec 8

/-- The value of one sketch register: 5 bits, 0 to 31 (00_scope.md R6 `RANK_W`, 10_state.md R24). -/
abbrev Rank := BitVec 5

end Sys2Proof
end

