-- ==== Sys2Proof/Syntax.lean ====
section
/-!
DEFINITION. The commands of the block (30_encoding.md R63), one constructor per row of `spec/opcode_table.json`, each operand
at its field's width (R61, R62); and the assembler's source lines (R67, R68), whose operands are numbers as written.
-/

namespace Sys2Proof

/-- The storage strategy, register `MODE` and sub-field `MODE1` (10_state.md R20, 30_encoding.md R61). -/
inductive Mode where
  /-- 0: Standard (43_storage.md R140). -/
  | standard
  /-- 1: Packed (43_storage.md R141). -/
  | packed
  deriving DecidableEq, Repr

/-- A command with its operand fields (30_encoding.md R63). -/
inductive Instr where
  /-- NOP, opcode 0x00 (44_control.md R160). -/
  | nop
  /-- CONFIG, opcode 0x01 (44_control.md R162): `PREC6`, `MODE1`, seed. -/
  | config (p : BitVec 6) (mode : Mode) (seed : Word32)
  /-- CLEAR, opcode 0x02 (43_storage.md R142). -/
  | clear
  /-- ADD_HASH, opcode 0x03 (41_update.md R105): the hash word. -/
  | addHash (h : Word32)
  /-- HASH_BYTE, opcode 0x04 (40_hash.md R82): `BYTE8`. -/
  | hashByte (c : Byte)
  /-- HASH_RESET, opcode 0x05 (40_hash.md R83). -/
  | hashReset
  /-- ADD_ELEM, opcode 0x06 (41_update.md R106). -/
  | addElem
  /-- ESTIMATE, opcode 0x07 (42_estimator.md R124). -/
  | estimate
  /-- MEM_USAGE, opcode 0x08 (43_storage.md R144). -/
  | memUsage
  /-- READ_REG, opcode 0x09 (43_storage.md R143): `INDEX16`. -/
  | readReg (i : BitVec 16)
  /-- STATUS, opcode 0x0A (44_control.md R163). -/
  | status
  deriving DecidableEq, Repr

/-- One line of assembly source (30_encoding.md R67, R68): operands are numbers as written, so a line may not fit its
fields (`Asm.wellFormed`). The seed of CONFIG is 0 where the line gives none. -/
inductive Asm where
  | nop
  | config (p : Nat) (mode : Mode) (seed : Nat)
  | clear
  | addHash (h : Nat)
  | hashByte (c : Nat)
  | hashReset
  | addElem
  | estimate
  | memUsage
  | readReg (i : Nat)
  | status
  /-- The pseudo-instruction `ADD "s"` (R68), its element as the code of each character in order. -/
  | add (element : List Nat)
  /-- The pseudo-instruction `NEW p, mode` (R68). -/
  | new (p : Nat) (mode : Mode)
  deriving DecidableEq, Repr

end Sys2Proof
end

