-- ==== Sys2Proof/WellFormed.lean ====
section
/-!
DEFINITION. Which terms are well-formed. A command (`Instr`) carries every operand at the width of its field, so each term of
that type is a command some word encodes; nothing is left to check there. What can be ill-formed is a line of
assembly source: "An assembler refuses an operand that does not fit its field (a `p` above 63, a `c` above 255, an `i` above
65535, an `h` or seed above `2^32 - 1`); it does not refuse a `p` that fits 6 bits but is outside 4 to 16"
(30_encoding.md R67).
-/

namespace Sys2Proof

/-- The code of a character of the printable ASCII range (30_encoding.md R68). That a string with any other character is refused is
DESIGN CHOICE, notes/assumptions/12.md. -/
def printableAscii (c : Nat) : Bool := decide (0x20 ≤ c) && decide (c ≤ 0x7E)

/-- The assembler accepts the line (30_encoding.md R67; for the string of `ADD` notes/assumptions/12.md). -/
def Asm.wellFormed : Asm → Bool
  | .nop => true
  | .config p _ seed => decide (p < 2 ^ 6) && decide (seed < 2 ^ 32)
  | .clear => true
  | .addHash h => decide (h < 2 ^ 32)
  | .hashByte c => decide (c < 2 ^ 8)
  | .hashReset => true
  | .addElem => true
  | .estimate => true
  | .memUsage => true
  | .readReg i => decide (i < 2 ^ 16)
  | .status => true
  | .add element => element.all printableAscii
  | .new p _ => decide (p < 2 ^ 6)

end Sys2Proof
end

