-- ==== Sys2Proof/Decode.lean ====
section
/-!
DEFINITION. Command words to commands (30_encoding.md R60 to R66), total on every 64-bit word and rejecting by name, and the
encoder, written from the assembly table of R67 (concatenations of fields), not from the decoder.
-/

namespace Sys2Proof

/-- The two errors of decoding (30_encoding.md R64). -/
inductive DecodeError where
  /-- `ILLEGAL_OPCODE`: `w[7:0]` is 0x0B to 0xFF. -/
  | illegalOpcode
  /-- `RESERVED_BITS`: a bit that the command's mask requires to be 0 is 1. -/
  | reservedBits
  deriving DecidableEq, Repr

/-- One row of the opcode map (30_encoding.md R63): a bit in `mask` must equal the bit of `pattern`. -/
structure OpcodeRow where
  mnemonic : String
  pattern : Word64
  mask : Word64
  deriving DecidableEq, Repr

/-- The opcode map of 30_encoding.md R63; the row of opcode `n` stands at position `n`. -/
def opcodeMap : List OpcodeRow :=
  [ ⟨"NOP",        0x0000000000000000#64, 0xFFFFFFFFFFFFFFFF#64⟩,
    ⟨"CONFIG",     0x0000000000000001#64, 0x00000000FFFEC0FF#64⟩,
    ⟨"CLEAR",      0x0000000000000002#64, 0xFFFFFFFFFFFFFFFF#64⟩,
    ⟨"ADD_HASH",   0x0000000000000003#64, 0x00000000FFFFFFFF#64⟩,
    ⟨"HASH_BYTE",  0x0000000000000004#64, 0xFFFFFFFFFFFF00FF#64⟩,
    ⟨"HASH_RESET", 0x0000000000000005#64, 0xFFFFFFFFFFFFFFFF#64⟩,
    ⟨"ADD_ELEM",   0x0000000000000006#64, 0xFFFFFFFFFFFFFFFF#64⟩,
    ⟨"ESTIMATE",   0x0000000000000007#64, 0xFFFFFFFFFFFFFFFF#64⟩,
    ⟨"MEM_USAGE",  0x0000000000000008#64, 0xFFFFFFFFFFFFFFFF#64⟩,
    ⟨"READ_REG",   0x0000000000000009#64, 0xFFFFFFFFFF0000FF#64⟩,
    ⟨"STATUS",     0x000000000000000A#64, 0xFFFFFFFFFFFFFFFF#64⟩ ]

/-- Bits `hi:lo` of a word as an unsigned number (00_scope.md R7). -/
def bits (w : Word64) (hi lo : Nat) : BitVec (hi - lo + 1) := w.extractLsb hi lo

/-- Field `OPC`, 7:0 (30_encoding.md R60). -/
def opc (w : Word64) : Byte := bits w 7 0

/-- Field `DATA`, 63:32 (R60, R62): the hash word of ADD_HASH, the seed of CONFIG. -/
def data (w : Word64) : Word32 := bits w 63 32

/-- Sub-field `PREC6`, 13:8 (R61). -/
def prec6 (w : Word64) : BitVec 6 := bits w 13 8

/-- Sub-field `BYTE8`, 15:8 (R61). -/
def byte8 (w : Word64) : Byte := bits w 15 8

/-- Sub-field `INDEX16`, 23:8 (R61). -/
def index16 (w : Word64) : BitVec 16 := bits w 23 8

/-- The strategy a `MODE1` bit names: 0 Standard, 1 Packed (R61). -/
def Mode.ofBit (b : Bool) : Mode := if b then .packed else .standard

/-- The bit of a strategy (R61, 44_control.md R163). -/
def Mode.bit : Mode → BitVec 1
  | .standard => 0#1
  | .packed => 1#1

/-- Sub-field `MODE1`, bit 16 (R61). -/
def mode1 (w : Word64) : Mode := Mode.ofBit (w.getLsbD 16)

/-- "the command named by op, with its operand fields" (30_encoding.md R64). -/
def commandOf (op : Nat) (w : Word64) : Option Instr :=
  match op with
  | 0x00 => some .nop
  | 0x01 => some (.config (prec6 w) (mode1 w) (data w))
  | 0x02 => some .clear
  | 0x03 => some (.addHash (data w))
  | 0x04 => some (.hashByte (byte8 w))
  | 0x05 => some .hashReset
  | 0x06 => some .addElem
  | 0x07 => some .estimate
  | 0x08 => some .memUsage
  | 0x09 => some (.readReg (index16 w))
  | 0x0A => some .status
  | _ => none

/-- Decoding (30_encoding.md R64): the opcode first, then the row's mask; it reads no state. -/
def decode (w : Word64) : Except DecodeError Instr :=
  match opcodeMap[(opc w).toNat]?, commandOf (opc w).toNat w with
  | some row, some i => if w &&& row.mask = row.pattern then .ok i else .error .reservedBits
  | _, _ => .error .illegalOpcode

/-- The word of a command (30_encoding.md R67, column "word"). -/
def encode : Instr → Word64
  | .nop => 0x0000000000000000#64
  | .config p mode seed => seed ++ 0x00#8 ++ 0#7 ++ mode.bit ++ 0#2 ++ p ++ 0x01#8
  | .clear => 0x0000000000000002#64
  | .addHash h => h ++ 0x000000#24 ++ 0x03#8
  | .hashByte c => 0x0#32 ++ 0x00#8 ++ 0x00#8 ++ c ++ 0x04#8
  | .hashReset => 0x0000000000000005#64
  | .addElem => 0x0000000000000006#64
  | .estimate => 0x0000000000000007#64
  | .memUsage => 0x0000000000000008#64
  | .readReg i => 0x0#32 ++ 0x00#8 ++ i ++ 0x09#8
  | .status => 0x000000000000000A#64

/-- The command word whose bits, numbered as `spec/opcode_table.json` numbers them, are the low `nbits` bits of `w`, every
bit above them 0. A command is one 64-bit word (30_encoding.md R60), so no byte order enters (20_memory.md R41). -/
def tableWord (nbits w : Nat) : Word64 := BitVec.ofNat 64 (w % 2 ^ nbits)

/-- What the decoder reads from the word `tableWord nbits w` (none where it rejects). -/
def decodeTableWord (nbits w : Nat) : Option Instr :=
  match decode (tableWord nbits w) with
  | .ok i => some i
  | .error _ => none

end Sys2Proof
end

