-- ==== Sys2Proof/Config.lean ====
section
/-!
DEFINITION. What an implementation of the block fixes (00_scope.md R6). The numeric literals are the source's as the spec
states them (D20, notes/assumptions/6.md). "A model takes `LN64` and `PACKED_CLEAR` as arguments" (R6): each is a field of
`State` that no step changes, so that a statement over all states covers each of its values (notes/assumptions/4.md and
16.md).
-/

namespace Sys2Proof

/-- The implementation parameter `PACKED_CLEAR` (00_scope.md R6, 43_storage.md R142): whether CLEAR exists in Packed
mode. -/
inductive PackedClear where
  /-- CLEAR in Packed mode ends with `UNSUPPORTED` (the spec's default). -/
  | refuse
  /-- CLEAR in Packed mode clears. -/
  | support
  deriving DecidableEq, Repr

/-- The implementation parameter `LN64` (00_scope.md R6, 42_estimator.md R127, D19) as plain data: the arguments at which the
implementation's logarithm departs from the correctly rounded one, each with its value there. The estimator forms finitely
many arguments, so every logarithm is such a list as far as it can be seen (notes/assumptions/16.md). -/
abbrev LnDepartures := List (Word64 × Word64)

namespace Config

/-- `HASH_MULT` (R6). -/
def hashMult : Word32 := 31#32

/-- `PREC_MIN` (R6, 44_control.md R161). -/
def precMin : Nat := 4

/-- `PREC_MAX` (R6, 44_control.md R161). -/
def precMax : Nat := 16

/-- `M_MAX`, the number of physical register entries (R6): `2^PREC_MAX`. -/
def mMax : Nat := 65536

/-- `RANK_CAP`, the Packed clamp (R6, 41_update.md R102). -/
def rankCap : Nat := 31

/-- `ALPHA`, the binary64 value nearest 0.7213 (R6, 42_estimator.md R122). -/
def alpha : Word64 := 0x3FE714E3BCD35A86#64

/-- `SR_FACTOR`, 2.5, exact in binary64 (R6): `1.25 * 2^1`. -/
def srFactor : Word64 := 0x4004000000000000#64

/-- `STD_WORD_BYTES` (R6, 43_storage.md R140): informative, no command reports it. -/
def stdWordBytes : Nat := 4

/-- The spec's default of `PACKED_CLEAR` (R6, D10). -/
def packedClearDefault : PackedClear := .refuse

/-- This block's `LN64` (42_estimator.md R127): correctly rounded, so it departs nowhere. -/
def lnDeparturesDefault : LnDepartures := []

/-- Working precision of the correctly rounded logarithm: it is computed in units of `2^-lnBits`
(DESIGN CHOICE, notes/assumptions/5.md). -/
def lnBits : Nat := 128

/-- How many terms of the logarithm's series are summed (DESIGN CHOICE, notes/assumptions/5.md). -/
def lnTerms : Nat := 40

end Config
end Sys2Proof
end

