-- ==== Sys2Proof/Machine/State.lean ====
section
/-!
DEFINITION. The state of the block as plain data (10_state.md R20), the state after reset (70_reset_and_hazards.md R200), and
the reasons a step could stop.
-/

namespace Sys2Proof.Machine

/-- One listed entry of the register array: an index and its 5-bit value. -/
abbrev Cell := Nat × Rank

/-- The register array `REG`, the block's only register file and its only memory (00_scope.md R9, 10_state.md R22,
20_memory.md R40). Canonical form (`Memory.wf`): indices strictly rising and below 65536, no entry equal to 0, which is what
an unlisted index reads as. -/
abbrev Memory := List Cell

/-- What the host does next (70_reset_and_hazards.md R200, 10_state.md R21; notes/assumptions/2.md and 3.md). -/
inductive HostEvent where
  /-- The host gives one 64-bit command word (20_memory.md R43). -/
  | command (w : Word64)
  /-- Hardware reset is applied, between commands (70_reset_and_hazards.md R200). -/
  | reset
  deriving DecidableEq, Repr

/-- The architectural state (10_state.md R20), then three fields of the model's own. `LAST_STATUS` stands before `RESULT` so that
Lean, comparing two states field by field, meets a differing status before it would compute an estimate. -/
structure State where
  /-- `CONFIGURED`, 1 bit. -/
  configured : Bool
  /-- `PREC`, 5 bits: the precision `B`. -/
  prec : BitVec 5
  /-- `MODE`, 1 bit. -/
  mode : Mode
  /-- `SEED`, 32 bits. -/
  seed : Word32
  /-- `ACC`, 32 bits: the accumulator of the hash front end. -/
  acc : Word32
  /-- `REG[0]` to `REG[65535]`, 5 bits each. -/
  reg : Memory
  /-- `LAST_STATUS`, 8 bits: the status of the last command. -/
  lastStatus : BitVec 8
  /-- `RESULT`, 64 bits: the result word of the last command. -/
  result : Word64
  /-- `STICKY_ERR`, 1 bit. -/
  stickyErr : Bool
  /-- The model's own: the implementation parameter `PACKED_CLEAR` (00_scope.md R6), which no step changes
  (notes/assumptions/4.md). -/
  packedClear : PackedClear
  /-- The model's own: the implementation parameter `LN64` (00_scope.md R6), which no step changes
  (notes/assumptions/16.md). -/
  lnDepartures : LnDepartures
  /-- The model's own: what the host will do, the next first (notes/assumptions/2.md). -/
  input : List HostEvent
  deriving DecidableEq, Repr

/-- Hardware reset (70_reset_and_hazards.md R200). Nothing of `REG` is listed: the spec leaves every entry unspecified and
unreadable until CONFIG writes it (10_state.md R23); DESIGN CHOICE, notes/assumptions/1.md. -/
def State.reset : State where
  configured := false
  prec := 0#5
  mode := .standard
  seed := 0#32
  acc := 0#32
  reg := []
  result := 0#64
  lastStatus := 0#8
  stickyErr := false
  packedClear := Config.packedClearDefault
  lnDepartures := Config.lnDeparturesDefault
  input := []

/-- The six statuses other than `OK` (60_exceptions.md R180). -/
inductive ErrorCode where
  /-- 1: `w[7:0]` is 0x0B to 0xFF. -/
  | illegalOpcode
  /-- 2: a bit the command's mask requires to be 0 is 1. -/
  | reservedBits
  /-- 3: the command needs `CONFIGURED = 1`. -/
  | notConfigured
  /-- 4: `PREC6` outside 4 to 16. -/
  | invalidPrecision
  /-- 5: the operation does not exist for the storage strategy. -/
  | unsupported
  /-- 6: `INDEX16 >= m`. -/
  | indexRange
  deriving DecidableEq, Repr

/-- Faults: none. The block has no trap and never stops: a command that fails ends with a status and the block accepts
the next one (60_exceptions.md R182, R185), so no step of the model raises a fault (notes/assumptions/11.md). -/
inductive Fault
  deriving DecidableEq, Repr

/-- Refusals. -/
inductive Refusal where
  /-- Raised by an arm of `exec` whose command has no meaning yet. No arm does; safe. -/
  | notModelled (mnemonic : String)
  deriving DecidableEq, Repr

/-- How a command or a step ends. -/
abbrev Result := Host.Outcome State Fault Refusal

end Sys2Proof.Machine
end

