-- ==== Sys2Proof/Machine/Ops.lean ====
section
/-!
DEFINITION. The named operations over the register array, the response and the host's stream. Ending a command in error
(60_exceptions.md R182) is ONE operation, `raiseError`; the block has no trap and no return from one (R185, R186).
-/

namespace Sys2Proof.Machine

/-! ### The register array -/

/-- `REG[i]` as stored: an unlisted index reads as 0. `State.reg?` says when the value exists architecturally. -/
def Memory.read : Memory → Nat → Rank
  | [], _ => 0#5
  | (a, v) :: rest, i => if a = i then v else Memory.read rest i

/-- `REG[i] <- v`, keeping the canonical form: writing 0 leaves the index unlisted. -/
def Memory.write : Memory → Nat → Rank → Memory
  | [], i, v => if v = 0#5 then [] else [(i, v)]
  | (a, x) :: rest, i, v =>
    if a < i then (a, x) :: Memory.write rest i v
    else if a = i then (if v = 0#5 then rest else (i, v) :: rest)
    else if v = 0#5 then (a, x) :: rest
    else (i, v) :: (a, x) :: rest

/-- "for i in 0 .. 65535: REG[i] <- 0" (43_storage.md R142, 44_control.md R162): every entry, in use or not. -/
def Memory.zeroed : Memory := []

/-- The list is strictly rising from `low` on, with no index of 65536 or more and no value 0. -/
def Memory.wfFrom : Nat → Memory → Bool
  | _, [] => true
  | low, (a, v) :: rest =>
    decide (low ≤ a) && decide (a < Config.mMax) && decide (v ≠ 0#5) && Memory.wfFrom (a + 1) rest

/-- The canonical form of the register array: indices strictly rising and below 65536, no entry equal to 0. -/
def Memory.wf (m : Memory) : Bool := Memory.wfFrom 0 m

/-- `m = 2^B`, the number of registers in use at precision `B` (00_scope.md R6). -/
def regsInUse (B : Nat) : Nat := 2 ^ B

/-- `REG[i]` as the architecture has it: absent while no CONFIG has written it ("A model represents the unspecified
registers as absent", 70_reset_and_hazards.md R200; `CONFIGURED = 0` says so, 10_state.md R23), and outside the index
space 0 to 65535 (20_memory.md R46). -/
def State.reg? (s : State) (i : Nat) : Option Rank :=
  if s.configured = true ∧ i < Config.mMax then some (s.reg.read i) else none

/-! ### The response -/

/-- The codes of 60_exceptions.md R180. -/
def ErrorCode.code : ErrorCode → BitVec 8
  | .illegalOpcode => 1#8
  | .reservedBits => 2#8
  | .notConfigured => 3#8
  | .invalidPrecision => 4#8
  | .unsupported => 5#8
  | .indexRange => 6#8

/-- Status `OK` (60_exceptions.md R180). -/
def statusOk : BitVec 8 := 0#8

/-- `respond(OK, r)` (00_scope.md R9, 10_state.md R30): ends a command. -/
def respond (r : Word64) (s : State) : State := { s with lastStatus := statusOk, result := r }

/-- `raise Error(code)` (60_exceptions.md R182): the whole effect of a command that ends in error. -/
def raiseError (e : ErrorCode) (s : State) : State :=
  { s with lastStatus := e.code, result := 0#64, stickyErr := true }

/-- The response of the last command, which the host reads between commands (10_state.md R31). -/
def State.response (s : State) : BitVec 8 × Word64 := (s.lastStatus, s.result)

/-- "if CONFIGURED = 0: raise Error(NOT_CONFIGURED)", the first check of eight commands (60_exceptions.md R181). -/
def whenConfigured (s : State) (k : Result) : Result :=
  if s.configured = true then k else .next (raiseError .notConfigured s)

/-- The status of a decoding error (30_encoding.md R64). -/
def DecodeError.errorCode : DecodeError → ErrorCode
  | .illegalOpcode => .illegalOpcode
  | .reservedBits => .reservedBits

/-! ### The host's stream -/

/-- The host's next action and the state in which it is carried out; none when the host has given nothing
(notes/assumptions/2.md). -/
def takeInput (s : State) : Option (HostEvent × State) :=
  match s.input with
  | [] => none
  | e :: rest => some (e, { s with input := rest })

/-- "the block waits for the next command with its state held" (60_exceptions.md R191). -/
def waitForHost (s : State) : State := s

/-- The host is going to give the command word `w` next. -/
def giveCommand (w : Word64) (s : State) : State := { s with input := .command w :: s.input }

/-- Hardware reset (70_reset_and_hazards.md R200): every piece of the block's state to its reset value. What the host will
do afterwards and the implementation's parameters are no state of the block and stay (notes/assumptions/3.md). -/
def hardwareReset (s : State) : State :=
  { State.reset with packedClear := s.packedClear, lnDepartures := s.lnDepartures, input := s.input }

/-- A word that decodes to no command (30_encoding.md R64, R65): the error's status and nothing else. -/
def rejectWord (e : DecodeError) (s : State) : State := raiseError (DecodeError.errorCode e) s

end Sys2Proof.Machine
end

