-- ==== Sys2Proof/Machine/Flags.lean ====
section
/-!
DEFINITION. The block's flag-like state is `LAST_STATUS` and `STICKY_ERR` (10_state.md R33), written by `respond` and
`raiseError` of `Ops.lean`; this file has the words that report state: the STATUS result (44_control.md R163).
-/

namespace Sys2Proof.Machine

/-- The result word of STATUS (44_control.md R163): SEED in 63:32, STICKY_ERR in 16, PREC in 12:8, MODE in 1, CONFIGURED in
0, every other bit 0. -/
def statusWord (s : State) : Word64 :=
  s.seed ++ 0#15 ++ BitVec.ofBool s.stickyErr ++ 0#3 ++ s.prec ++ 0#6 ++ s.mode.bit ++ BitVec.ofBool s.configured

end Sys2Proof.Machine
end

