-- ==== Sys2Proof/Machine/Control.lean ====
section
/-!
DEFINITION. The commands of 44_control.md: NOP (R160), CONFIG (R161, R162), STATUS (R163).
-/

namespace Sys2Proof.Machine

/-- NOP (R160): only the response. -/
def execNop (s : State) : Result := .next (respond 0#64 s)

/-- A precision is accepted exactly when `4 <= p <= 16` (R161). -/
def precisionOk (p : BitVec 6) : Bool :=
  decide (Config.precMin ≤ p.toNat) && decide (p.toNat ≤ Config.precMax)

/-- CONFIG (R162): constructs a new, empty sketch, or refuses the precision and changes nothing but the response. -/
def execConfig (p : BitVec 6) (mode : Mode) (seed : Word32) (s : State) : Result :=
  if precisionOk p = true then
    .next (respond 0#64
      { s with
        configured := true
        prec := p.setWidth 5
        mode := mode
        seed := seed
        acc := 0#32
        reg := Memory.zeroed })
  else .next (raiseError .invalidPrecision s)

/-- STATUS (R163): reports `STICKY_ERR` as earlier commands left it. -/
def execStatus (s : State) : Result := .next (respond (statusWord s) s)

end Sys2Proof.Machine
end

