-- ==== Sys2Proof/Machine/Float64.lean ====
section
/-!
DEFINITION. IEEE 754 binary64 on exact numbers (00_scope.md R8): a finite non-negative encoding stands for the fraction
`num / den` of naturals, and `rne64` rounds an exact fraction to the nearest encoding, ties to even. All values of the block
are non-negative (42_estimator.md R126), so no sign enters.
-/

namespace Sys2Proof.Machine

/-- The biased exponent, bits 62:52 (00_scope.md R8). -/
def expField (w : Word64) : Nat := (w.extractLsb 62 52).toNat

/-- The fraction field, bits 51:0 (00_scope.md R8). -/
def fracField (w : Word64) : Nat := (w.extractLsb 51 0).toNat

/-- The significand as an integer, in units of the last fraction bit: the hidden bit is 1 for a non-zero exponent field. -/
def significand (w : Word64) : Nat := if expField w = 0 then fracField w else 2 ^ 52 + fracField w

/-- The exponent in force: a zero exponent field (zero, subnormal) has that of field 1. -/
def effExp (w : Word64) : Nat := max (expField w) 1

/-- The numerator of the value `significand * 2^(effExp - 1075)` (sign 0, finite). -/
def num64 (w : Word64) : Nat := significand w <<< (effExp w - 1075)

/-- The denominator of the value `significand * 2^(effExp - 1075)`: a power of two. -/
def den64 (w : Word64) : Nat := 1 <<< (1075 - effExp w)

/-- `n / d` rounded to the nearest integer, ties to even. -/
def roundHalfEven (n d : Nat) : Nat :=
  if 2 * (n % d) < d then n / d
  else if d < 2 * (n % d) then n / d + 1
  else n / d + (n / d) % 2

/-- The biased exponent of the binade that holds `n / d`, for positive `n` and `d`: `2^(e - 1023) <= n/d < 2^(e - 1022)`,
and 1 below the normal range. -/
def binade (n d : Nat) : Nat :=
  max 1 (if d <<< n.log2 ≤ n <<< d.log2 then 1023 + n.log2 - d.log2 else 1022 + n.log2 - d.log2)

/-- The encoding of infinity: exponent field 0x7FF, fraction 0. -/
def inf64 : Nat := 0x7FF0000000000000

/-- `RNE64(n / d)` (00_scope.md R8) as an encoding, for `d` not 0. The sum of exponent and significand lets a significand
that rounds up to `2^53` carry into the exponent field; a value above the finite range gives infinity, which no estimate
reaches (42_estimator.md R126, notes/assumptions/7.md). -/
def rne64 (n d : Nat) : Word64 :=
  if n = 0 then 0#64
  else
    BitVec.ofNat 64
      (min inf64 ((binade n d - 1) <<< 52 + roundHalfEven (n <<< 1075) (d <<< binade n d)))

/-- `n * x` for a natural `n`, rounded (exact where `n` is a power of two and the product is in range,
42_estimator.md R123). -/
def mulNat64 (n : Nat) (x : Word64) : Word64 := rne64 (n * num64 x) (den64 x)

/-! ### The natural logarithm (42_estimator.md R127)

For `q = M * 2^E` with `1 <= M < 2`: `ln q = E * ln 2 + ln M`, `ln M = 2 * artanh z` with `z = (M - 1)/(M + 1)`, and
`ln 2 = 2 * artanh (1/3)`. -/

/-- `Σ z^(2j) / (2(k+j)+1)` over `n` terms, `z = a/b`, in units of `2^-128`, by Horner's scheme with every division rounded
down. -/
def artanhHorner (a b : Nat) : Nat → Nat → Nat
  | 0, _ => 0
  | n + 1, k => (1 <<< Config.lnBits) / (2 * k + 1) + artanhHorner a b n (k + 1) * (a * a) / (b * b)

/-- A lower bound of `2 * artanh (a/b)` in units of `2^-128`. -/
def artanhLow (a b : Nat) : Nat := 2 * a * artanhHorner a b Config.lnTerms 0 / b

/-- The exponent `E` of a normal `q >= 1`. -/
def lnExp (q : Word64) : Nat := expField q - 1023

/-- A lower bound of `ln q` in units of `2^-128`, for a normal `q >= 1`; 0 for `q = 1`. -/
def lnLow (q : Word64) : Nat :=
  lnExp q * artanhLow 1 3 + artanhLow (significand q - 2 ^ 52) (significand q + 2 ^ 52)

/-- What the bound `lnLow` can lack, in the same units. With `z <= 1/3` a Horner sum lacks less than `2 / (1 - 1/9) = 9/4`
units for its roundings, the factor `2z` makes that at most `3/2`, the last division takes less than 1 more and the cut
tail less than `1/4`: less than 3 for each series. The series of `M = 1` is exactly 0. -/
def lnSlack (q : Word64) : Nat := 3 * lnExp q + if significand q = 2 ^ 52 then 0 else 3

/-- An upper bound of `ln q` in the same units. -/
def lnHigh (q : Word64) : Nat := lnLow q + lnSlack q

/-- Both bounds round to the same binary64 value, so that value is the correctly rounded logarithm. -/
def lnCertified (q : Word64) : Bool :=
  decide (rne64 (lnLow q) (1 <<< Config.lnBits) = rne64 (lnHigh q) (1 <<< Config.lnBits))

/-- `LN64` of this block (42_estimator.md R127): "the binary64 value nearest the real ln(q) (correctly rounded)", and
`LN64(1) = +0.0`. Required for `q` in [1, 65536] only; below 1 its value means nothing and nothing reads it
(notes/assumptions/5.md). -/
def ln64 (q : Word64) : Word64 := rne64 (lnLow q) (1 <<< Config.lnBits)

/-- `LN64` of the implementation with parameter `d` (00_scope.md R6, D19): its own value where it departs from the correctly
rounded logarithm, that logarithm elsewhere (notes/assumptions/16.md). -/
def lnOf : LnDepartures → Word64 → Word64
  | [], q => ln64 q
  | (a, v) :: rest, q => if q = a then v else lnOf rest q

end Sys2Proof.Machine
end

