-- ==== Sys2Proof/Machine/Estimator.lean ====
section
/-!
DEFINITION. The estimate function (42_estimator.md R120 to R123), exact but for the two roundings the spec names. The
parameter `LN64` (00_scope.md R6) is the argument `ln`, which ESTIMATE takes from the state's parameter (`lnOf`).
-/

namespace Sys2Proof.Machine

/-- The sum of `f` over the `2^k` indices from `base` on, by halving; `Laws/Estimator.lean` proves it the plain sum. -/
def sumPow2 (f : Nat → Nat) : Nat → Nat → Nat
  | 0, base => f base
  | k + 1, base => sumPow2 f k base + sumPow2 f k (base + 2 ^ k)

/-- The harmonic sum `S = Σ 2^(-REG[i])` over the registers in use (R120), in units of `2^-31`, hence an integer. -/
def harmonicSum (reg : Memory) (B : Nat) : Nat := sumPow2 (fun i => 2 ^ (31 - (reg.read i).toNat)) B 0

/-- The zero count `V` (R121). -/
def zeroCount (reg : Memory) (B : Nat) : Nat := sumPow2 (fun i => if reg.read i = 0#5 then 1 else 0) B 0

/-- `raw = RNE64(ALPHA * m^2 / S)` (R122). -/
def rawEstimate (reg : Memory) (B : Nat) : Word64 :=
  rne64 (num64 Config.alpha * regsInUse B ^ 2 * 2 ^ 31) (den64 Config.alpha * harmonicSum reg B)

/-- The test of the small-range correction: `raw <= 2.5 * m and V > 0` (R123). -/
def smallRange (reg : Memory) (B : Nat) : Bool :=
  decide (num64 (rawEstimate reg B) * den64 Config.srFactor
      ≤ num64 Config.srFactor * regsInUse B * den64 (rawEstimate reg B))
    && decide (0 < zeroCount reg B)

/-- The linear-counting estimate `m * LN64(RNE64(m / V))`, a real division (R123). -/
def linearCounting (ln : Word64 → Word64) (reg : Memory) (B : Nat) : Word64 :=
  mulNat64 (regsInUse B) (ln (rne64 (regsInUse B) (zeroCount reg B)))

/-- `Estimate()` (R123) with logarithm `ln`; no large-range branch and no size-dependent constant (R128).
Irreducible: a proof unfolds it by name, no definitional check computes it. -/
@[irreducible] def estimateWith (ln : Word64 → Word64) (reg : Memory) (B : Nat) : Word64 :=
  if smallRange reg B = true then linearCounting ln reg B else rawEstimate reg B

end Sys2Proof.Machine
end

