-- ==== Sys2Proof/Machine/Estimate.lean ====
section
/-!
DEFINITION. The command ESTIMATE (42_estimator.md R124).
-/

namespace Sys2Proof.Machine

/-- ESTIMATE (R124): `RESULT <- bin64(E)`, with the implementation's `LN64` (00_scope.md R6); reads only `PREC` and the
registers in use (R129). -/
def execEstimate (s : State) : Result :=
  whenConfigured s (.next (respond (estimateWith (lnOf s.lnDepartures) s.reg s.prec.toNat) s))

end Sys2Proof.Machine
end

