-- ==== Sys2Proof/Machine/Operands.lean ====
section
/-!
DEFINITION. The arithmetic of the hash front end (40_hash.md R80, R81) and of the register update's operands
(41_update.md R100 to R102). Operand fields of the command word are taken out in `Decode.lean`.
-/

namespace Sys2Proof.Machine

/-- One step of the hash: `(a * 31 + zext_32(c)) mod 2^32` (40_hash.md R80, R82); the byte is unsigned (R81). -/
def hashStep (a : Word32) (c : Byte) : Word32 := a * Config.hashMult + c.setWidth 32

/-- The hash of an element, its bytes in order, from accumulator `a` on (40_hash.md R80). -/
def hashFrom (a : Word32) : List Byte → Word32
  | [] => a
  | c :: rest => hashFrom (hashStep a c) rest

/-- `Hash(c_0 .. c_(n-1))` (40_hash.md R80). -/
def elementHash (element : List Byte) : Word32 := hashFrom 0#32 element

/-- Leading zeros among the `n` low bits of `x`, from bit `n - 1` downwards. -/
def leadingZeros (x : Word32) : Nat → Nat
  | 0 => 0
  | n + 1 => if x.getLsbD n = true then 0 else leadingZeros x n + 1

/-- `clz32(x)` (00_scope.md R7): consecutive zero bits counted from bit 31 downwards; `clz32(0) = 32`. -/
def clz32 (x : Word32) : Nat := leadingZeros x 32

/-- The register index: `h >> (32 - B)`, the top `B` bits of the hash (41_update.md R100). -/
def index (h : Word32) (B : Nat) : Nat := (h >>> (32 - B)).toNat

/-- The remainder: `(h << B) mod 2^32` (41_update.md R101). -/
def remainder (h : Word32) (B : Nat) : Word32 := h <<< B

/-- The rank (41_update.md R101), with its special case for a zero remainder (90_conflicts.md C2). -/
def rank (h : Word32) (B : Nat) : Nat :=
  if remainder h B = 0#32 then 32 - B else clz32 (remainder h B) + 1

/-- The rank a strategy writes: clamped at 31 in Packed mode (41_update.md R102). -/
def storedRank (mode : Mode) (r : Nat) : Nat :=
  match mode with
  | .standard => r
  | .packed => min r Config.rankCap

end Sys2Proof.Machine
end

