-- ==== Sys2Proof/Machine/HashFrontEnd.lean ====
section
/-!
DEFINITION. The commands of the hash front end (40_hash.md): HASH_BYTE (R82) and HASH_RESET (R83).
-/

namespace Sys2Proof.Machine

/-- HASH_BYTE (R82). -/
def execHashByte (c : Byte) (s : State) : Result :=
  whenConfigured s (.next (respond 0#64 { s with acc := hashStep s.acc c }))

/-- HASH_RESET (R83). -/
def execHashReset (s : State) : Result :=
  whenConfigured s (.next (respond 0#64 { s with acc := 0#32 }))

end Sys2Proof.Machine
end

