-- ==== Sys2Proof/Machine/Layout.lean ====
section
/-!
DEFINITION. The two storage layouts as views of the register array (10_state.md R26: "the layout is not architectural"; the
reference layout of D27, on which no rule depends; notes/assumptions/8.md), and the footprints (43_storage.md R140, R141).
-/

namespace Sys2Proof.Machine

/-- Standard: register `i` in bits 4:0 of 32-bit word `i`, bits 31:5 zero (R26, D27). -/
def standardWord (reg : Memory) (i : Nat) : Word32 := (reg.read i).setWidth 32

/-- Packed: bit `j` of the bit string, register `i` in bits `5i+4 .. 5i` (D27). -/
def packedBit (reg : Memory) (j : Nat) : Bool := (reg.read (j / 5)).getLsbD (j % 5)

/-- Packed: byte `k` holds bits `8k+7 .. 8k`, the least significant bit first (D27). -/
def packedByte (reg : Memory) (k : Nat) : Byte :=
  BitVec.ofBool (packedBit reg (8 * k + 7)) ++ BitVec.ofBool (packedBit reg (8 * k + 6))
    ++ BitVec.ofBool (packedBit reg (8 * k + 5)) ++ BitVec.ofBool (packedBit reg (8 * k + 4))
    ++ BitVec.ofBool (packedBit reg (8 * k + 3)) ++ BitVec.ofBool (packedBit reg (8 * k + 2))
    ++ BitVec.ofBool (packedBit reg (8 * k + 1)) ++ BitVec.ofBool (packedBit reg (8 * k))

/-- The Standard footprint `4 * m` in bytes, informative (43_storage.md R140, R145). -/
def standardBytes (B : Nat) : Nat := Config.stdWordBytes * regsInUse B

/-- The Packed footprint `floor(m * 5 / 8)` in bytes, a truncating division (43_storage.md R141, R144). -/
def packedBytes (B : Nat) : Nat := regsInUse B * 5 / 8

end Sys2Proof.Machine
end

