-- ==== Sys2Proof/Machine/Storage.lean ====
section
/-!
DEFINITION. The commands of 43_storage.md: CLEAR (R142), READ_REG (R143), MEM_USAGE (R144).
-/

namespace Sys2Proof.Machine

/-- CLEAR (R142). -/
def execClear (s : State) : Result :=
  whenConfigured s
    (if s.mode = .packed ∧ s.packedClear = .refuse then .next (raiseError .unsupported s)
     else .next (respond 0#64 { s with reg := Memory.zeroed }))

/-- READ_REG (R143). -/
def execReadReg (i : BitVec 16) (s : State) : Result :=
  whenConfigured s
    (if regsInUse s.prec.toNat ≤ i.toNat then .next (raiseError .indexRange s)
     else .next (respond ((s.reg.read i.toNat).setWidth 64) s))

/-- MEM_USAGE (R144). -/
def execMemUsage (s : State) : Result :=
  whenConfigured s
    (if s.mode = .standard then .next (raiseError .unsupported s)
     else .next (respond (BitVec.ofNat 64 (packedBytes s.prec.toNat)) s))

end Sys2Proof.Machine
end

