-- ==== Sys2Proof/Machine/Update.lean ====
section
/-!
DEFINITION. The register update (41_update.md R103, R104) and its two commands, ADD_HASH (R105) and ADD_ELEM (R106).
-/

namespace Sys2Proof.Machine

/-- The larger of a register's value and a rank, as the 5-bit value written (R104). -/
def maxRank (old : Rank) (r : Nat) : Rank := BitVec.ofNat 5 (max old.toNat r)

/-- `REG[i] <- max(REG[i], r)`, one indivisible read, comparison and write (R104). -/
def Memory.raise (reg : Memory) (i r : Nat) : Memory := reg.write i (maxRank (reg.read i) r)

/-- `Update(h)` (R103): at most one register is raised, nothing else changes. -/
def update (h : Word32) (s : State) : State :=
  { s with reg := s.reg.raise (index h s.prec.toNat) (storedRank s.mode (rank h s.prec.toNat)) }

/-- ADD_HASH (R105). -/
def execAddHash (h : Word32) (s : State) : Result :=
  whenConfigured s (.next (respond 0#64 (update h s)))

/-- ADD_ELEM (R106): update by `ACC`, then `ACC <- 0`. -/
def execAddElem (s : State) : Result :=
  whenConfigured s (.next (respond 0#64 { update s.acc s with acc := 0#32 }))

end Sys2Proof.Machine
end

