-- ==== Sys2Proof/Machine/Dispatch.lean ====
section
/-!
DEFINITION. One arm per command of the opcode map (30_encoding.md R63), each a direct call of its meaning.
-/

namespace Sys2Proof.Machine

def exec (i : Instr) (s : State) : Host.Outcome State Fault Refusal :=
  match i with
  | .nop => Sys2Proof.Machine.execNop s
  | .config p mode seed => Sys2Proof.Machine.execConfig p mode seed s
  | .clear => Sys2Proof.Machine.execClear s
  | .addHash h => Sys2Proof.Machine.execAddHash h s
  | .hashByte c => Sys2Proof.Machine.execHashByte c s
  | .hashReset => Sys2Proof.Machine.execHashReset s
  | .addElem => Sys2Proof.Machine.execAddElem s
  | .estimate => Sys2Proof.Machine.execEstimate s
  | .memUsage => Sys2Proof.Machine.execMemUsage s
  | .readReg index => Sys2Proof.Machine.execReadReg index s
  | .status => Sys2Proof.Machine.execStatus s

end Sys2Proof.Machine
end

