-- ==== Sys2Proof/Machine/Step.lean ====
section
/-!
DEFINITION. One step of the machine: what the host does next is carried out whole (20_memory.md R43). The block has no program
counter and fetches nothing from a memory (10_state.md R21, 20_memory.md R51): the next command is the first entry of
`State.input` (notes/assumptions/2.md).
-/

namespace Sys2Proof.Machine

/-- `s` with the command word of the low `nbits` bits of `w` as the next one the host gives (notes/assumptions/2.md). -/
def State.withFetchWord (s : State) (nbits w : Nat) : State := giveCommand (tableWord nbits w) s

/-- The host gives the command word `w`: it is decoded (30_encoding.md R64) and the command carried out whole
(20_memory.md R43), or the word ends with its decoding error's status. -/
def runWord (w : Word64) (s : State) : Result :=
  match decode w with
  | .ok i => exec i s
  | .error e => .next (rejectWord e s)

/-- One step: the next command word is run; hardware reset takes effect (70_reset_and_hazards.md R200); with nothing given,
the block waits (60_exceptions.md R191). -/
def step (s : State) : Host.Outcome State Fault Refusal :=
  match takeInput s with
  | none => .next (waitForHost s)
  | some (.reset, s') => .next (hardwareReset s')
  | some (.command w, s') => runWord w s'

end Sys2Proof.Machine
end

