-- ==== Sys2Proof/Machine/Assembler.lean ====
section
/-!
DEFINITION. The assembler of 30_encoding.md: a source line's commands (R67), the pseudo-instructions' expansions (R68), and the
reading of a line of text. It stands outside the machine: the host assembles and gives the words. What R67 leaves open of the
text (blanks, letter case, quotes, how a mode or a number may be written) is DESIGN CHOICE, notes/assumptions/12.md.
-/

namespace Sys2Proof.Machine

/-- The commands of `ADD` for an element (R68): HASH_RESET, one HASH_BYTE a byte, ADD_ELEM. -/
def addExpansion (element : List Byte) : List Instr :=
  Instr.hashReset :: (element.map Instr.hashByte ++ [Instr.addElem])

/-- The commands of a line whose operands fit their fields (R67, R68). -/
def expand : Asm → List Instr
  | .nop => [.nop]
  | .config p mode seed => [.config (BitVec.ofNat 6 p) mode (BitVec.ofNat 32 seed)]
  | .clear => [.clear]
  | .addHash h => [.addHash (BitVec.ofNat 32 h)]
  | .hashByte c => [.hashByte (BitVec.ofNat 8 c)]
  | .hashReset => [.hashReset]
  | .addElem => [.addElem]
  | .estimate => [.estimate]
  | .memUsage => [.memUsage]
  | .readReg i => [.readReg (BitVec.ofNat 16 i)]
  | .status => [.status]
  | .add element => addExpansion (element.map (BitVec.ofNat 8))
  | .new p mode => [.config (BitVec.ofNat 6 p) mode 0#32]

/-- Assembling one line (R67): its words in order, or a refusal where an operand does not fit its field. -/
def assemble (line : Asm) : Option (List Word64) :=
  if line.wellFormed = true then some ((expand line).map encode) else none

/-! ### Reading a line of text -/

/-- A blank between the parts of a line. -/
def isBlank (c : Char) : Bool := c = ' ' || c = '\t'

/-- The text without the blanks at its two ends. -/
def trimBlanks (t : List Char) : List Char := ((t.dropWhile isBlank).reverse.dropWhile isBlank).reverse

/-- The value of a digit in base 10 or 16. -/
def digitValue (base : Nat) (c : Char) : Option Nat :=
  let v :=
    if '0' ≤ c ∧ c ≤ '9' then c.toNat - '0'.toNat
    else if 'a' ≤ c ∧ c ≤ 'f' then c.toNat - 'a'.toNat + 10
    else if 'A' ≤ c ∧ c ≤ 'F' then c.toNat - 'A'.toNat + 10
    else 16
  if v < base then some v else none

/-- The digits' number, `acc` being the number of the digits before them. -/
def readDigits (base acc : Nat) : List Char → Option Nat
  | [] => some acc
  | c :: rest =>
    match digitValue base c with
    | some v => readDigits base (acc * base + v) rest
    | none => none

/-- A number: "decimal or `0x` hexadecimal" (R67); its digits' form is DESIGN CHOICE, notes/assumptions/12.md. -/
def readNumber : List Char → Option Nat
  | [] => none
  | '0' :: 'x' :: c :: rest => readDigits 16 0 (c :: rest)
  | text => readDigits 10 0 text

/-- The operand of HASH_BYTE: "a number or a quoted character" (R67). -/
def readByte : List Char → Option Nat
  | ['\'', c, '\''] => some c.toNat
  | text => readNumber text

/-- A storage strategy's name (R67). That the operand `mode` of CONFIG and NEW may not be the number 0 or 1 instead is
DESIGN CHOICE, notes/assumptions/12.md: R67 leaves it open. -/
def readMode (text : List Char) : Option Mode :=
  if text = "STD".toList then some .standard
  else if text = "PACKED".toList then some .packed
  else none

/-- The element of `ADD "s"` (R68): the codes of the characters between the quotes, in order. -/
def readElement : List Char → Option (List Nat)
  | '"' :: rest =>
    if rest.getLast? = some '"' ∧ '"' ∉ rest.dropLast then some (rest.dropLast.map Char.toNat) else none
  | _ => none

/-- The comma-separated operands, without the blanks around them (R67). -/
def splitOperands (text : List Char) : List (List Char) := (text.splitOn ',').map trimBlanks

/-- The operands of CONFIG: `p, mode` (the seed 0) or `p, mode, seed` (R67); that `p` alone is refused is DESIGN CHOICE,
notes/assumptions/12.md. -/
def readConfig : List (List Char) → Option Asm
  | [p, mode] => do return .config (← readNumber p) (← readMode mode) 0
  | [p, mode, seed] => do return .config (← readNumber p) (← readMode mode) (← readNumber seed)
  | _ => none

/-- The operands of the pseudo-instruction NEW: `p, mode` (R68). -/
def readNew : List (List Char) → Option Asm
  | [p, mode] => do return .new (← readNumber p) (← readMode mode)
  | _ => none

/-- One line of text: "the mnemonic followed by comma-separated operands" (R67). -/
def readLine (text : List Char) : Option Asm :=
  let line := trimBlanks text
  let name := line.takeWhile (fun c => !isBlank c)
  let rest := trimBlanks (line.drop name.length)
  if name = "CONFIG".toList then readConfig (splitOperands rest)
  else if name = "ADD_HASH".toList then (readNumber rest).map .addHash
  else if name = "HASH_BYTE".toList then (readByte rest).map .hashByte
  else if name = "READ_REG".toList then (readNumber rest).map .readReg
  else if name = "ADD".toList then (readElement rest).map .add
  else if name = "NEW".toList then readNew (splitOperands rest)
  else if rest ≠ [] then none
  else if name = "NOP".toList then some .nop
  else if name = "CLEAR".toList then some .clear
  else if name = "HASH_RESET".toList then some .hashReset
  else if name = "ADD_ELEM".toList then some .addElem
  else if name = "ESTIMATE".toList then some .estimate
  else if name = "MEM_USAGE".toList then some .memUsage
  else if name = "STATUS".toList then some .status
  else none

end Sys2Proof.Machine
end

