-- ==== Sys2Proof/Safety.lean ====
section
/-!
DEFINITION. The terms in which claims about the block are stated: the invariant of every reachable state, how a command ends,
what it leaves unchanged, runs of several commands, and the real number a binary64 encoding stands for.
-/

namespace Sys2Proof.Machine

/-! ### The invariant -/

/-- What holds of the block in every state it reaches: the legal values of 10_state.md R20, the rank bound of R24, unused
entries zero (R23), the legal statuses of 60_exceptions.md R180, and two clauses of the model's own: the canonical form of the
register array (notes/assumptions/8.md) and its empty list before a construction (notes/assumptions/1.md). -/
structure SketchInv (s : State) : Prop where
  /-- The register array keeps its canonical form. -/
  memWf : s.reg.wf = true
  /-- Before a construction every control register has its reset value and nothing of `REG` is listed. -/
  unconfigured : s.configured = false →
    s.prec = 0#5 ∧ s.mode = .standard ∧ s.seed = 0#32 ∧ s.acc = 0#32 ∧ s.reg = []
  /-- `PREC` is 4 to 16 when `CONFIGURED = 1` (R20). -/
  precLegal : s.configured = true → 4 ≤ s.prec.toNat ∧ s.prec.toNat ≤ 16
  /-- "every in-use register satisfies `REG[i] <= 32 - PREC`" (R24). -/
  rankBound : s.configured = true → ∀ i, i < 2 ^ s.prec.toNat → (s.reg.read i).toNat ≤ 32 - s.prec.toNat
  /-- Unused entries are 0 once configured: CONFIG and CLEAR zero them and nothing else writes them (R23). -/
  unusedZero : s.configured = true → ∀ i, 2 ^ s.prec.toNat ≤ i → s.reg.read i = 0#5
  /-- Only the statuses 0 to 6 are written (R180). -/
  statusLegal : s.lastStatus.toNat ≤ 6
  /-- A response that is an error has `RESULT = 0`, and the sticky bit records it (60_exceptions.md R182). -/
  errorResponse : s.lastStatus ≠ 0#8 → s.result = 0#64 ∧ s.stickyErr = true

/-! ### How a command ends, and what it leaves unchanged -/

/-- The command ended with status `OK` and result `r`; `STICKY_ERR` is as before (00_scope.md R9 `respond`). -/
def EndsOk (s t : State) (r : Word64) : Prop :=
  t.lastStatus = 0#8 ∧ t.result = r ∧ t.stickyErr = s.stickyErr

/-- The command ended with the error status `code` (60_exceptions.md R182). -/
def EndsInError (t : State) (code : BitVec 8) : Prop :=
  t.lastStatus = code ∧ t.result = 0#64 ∧ t.stickyErr = true

/-- `CONFIGURED`, `PREC`, `MODE` and `SEED` are unchanged. -/
def SameConfig (s t : State) : Prop :=
  t.configured = s.configured ∧ t.prec = s.prec ∧ t.mode = s.mode ∧ t.seed = s.seed

/-- Every entry of `REG` reads as before. -/
def SameRegs (s t : State) : Prop := ∀ i, t.reg.read i = s.reg.read i

/-- The model's own fields are unchanged. -/
def SameHost (s t : State) : Prop := t.packedClear = s.packedClear ∧ t.lnDepartures = s.lnDepartures ∧ t.input = s.input

/-- Nothing but the response and `STICKY_ERR` has changed. -/
def SketchKept (s t : State) : Prop :=
  SameConfig s t ∧ t.acc = s.acc ∧ SameRegs s t ∧ SameHost s t

/-- The commands that need a construction (60_exceptions.md R181): all but NOP, CONFIG and STATUS. -/
def needsConfigured : Instr → Bool
  | .nop => false
  | .config _ _ _ => false
  | .clear => true
  | .addHash _ => true
  | .hashByte _ => true
  | .hashReset => true
  | .addElem => true
  | .estimate => true
  | .memUsage => true
  | .readReg _ => true
  | .status => false

/-- The words of opcode `op` decode to `i w` where the bits that must be 0 are 0, and are rejected with `RESERVED_BITS`
where one is 1 (30_encoding.md R63, R64). -/
def EncodedAs (op : Byte) (mustBeZero : Word64 → Prop) (i : Word64 → Instr) : Prop :=
  ∀ w : Word64, w.extractLsb' 0 8 = op →
    (mustBeZero w → decode w = .ok (i w)) ∧ (¬ mustBeZero w → decode w = .error .reservedBits)

/-! ### Several commands -/

/-- The commands one after another, each to completion before the next (20_memory.md R43, R48). -/
def execAll : List Instr → State → Result
  | [], s => .next s
  | i :: rest, s =>
    match exec i s with
    | .next t => execAll rest t
    | .fault f => .fault f
    | .refused r => .refused r

/-- The commands that begin the register contents anew: every other command updates the sketch or leaves it (10_state.md R25). -/
def restarts : Instr → Bool
  | .nop => false
  | .config _ _ _ => true
  | .clear => true
  | .addHash _ => false
  | .hashByte _ => false
  | .hashReset => false
  | .addElem => false
  | .estimate => false
  | .memUsage => false
  | .readReg _ => false
  | .status => false

/-- The hash word by which a command updates the sketch, `acc` being the accumulator it meets: ADD_HASH's operand, ADD_ELEM's
accumulated hash (41_update.md R105, R106). -/
def appliedHash (acc : Word32) : Instr → Option Word32
  | .nop => none
  | .config _ _ _ => none
  | .clear => none
  | .addHash h => some h
  | .hashByte _ => none
  | .hashReset => none
  | .addElem => some acc
  | .estimate => none
  | .memUsage => none
  | .readReg _ => none
  | .status => none

/-- The accumulator after a command on a configured block (10_state.md R29); CONFIG is meant accepted. -/
def nextAcc (acc : Word32) : Instr → Word32
  | .nop => acc
  | .config _ _ _ => 0#32
  | .clear => acc
  | .addHash _ => acc
  | .hashByte c => hashStep acc c
  | .hashReset => 0#32
  | .addElem => 0#32
  | .estimate => acc
  | .memUsage => acc
  | .readReg _ => acc
  | .status => acc

/-- The hash words by which a sequence of commands updates the sketch, in order, from accumulator `acc` on: the `h_1 .. h_k`
"applied by ADD_HASH (or ADD_ELEM)" of 41_update.md R107. -/
def appliedHashes (acc : Word32) : List Instr → List Word32
  | [] => []
  | i :: rest => (appliedHash acc i).toList ++ appliedHashes (nextAcc acc i) rest

/-- `max { rank(h, B) : h in hs, index(h) = i }`, 0 over the empty set (41_update.md R107). -/
def largestRank (hs : List Word32) (B i : Nat) : Nat :=
  (hs.filter (fun h => index h B = i)).foldr (fun h m => max (rank h B) m) 0

/-! ### The number a binary64 encoding stands for -/

/-- A finite, non-negative encoding: sign 0, exponent field not all ones (00_scope.md R8). -/
def Finite64 (w : Word64) : Prop := w.getLsbD 63 = false ∧ expField w < 2047

/-- Normal or +0.0 (42_estimator.md R126). -/
def NormalOrZero64 (w : Word64) : Prop := Finite64 w ∧ (w = 0#64 ∨ 1 ≤ expField w)

/-- The value of a finite non-negative encoding (00_scope.md R8). -/
def value64 (w : Word64) : ℚ := (num64 w : ℚ) / (den64 w : ℚ)

/-- `w` is `RNE64(x)`: the binary64 value nearest `x`, "ties to the value with an even significand" (00_scope.md R8), among
the finite non-negative values. -/
def IsRne64 (w : Word64) (x : ℝ) : Prop :=
  Finite64 w ∧ ∀ v : Word64, Finite64 v →
    |((value64 w : ℚ) : ℝ) - x| ≤ |((value64 v : ℚ) : ℝ) - x| ∧
    (v ≠ w → |((value64 w : ℚ) : ℝ) - x| = |((value64 v : ℚ) : ℝ) - x| → significand w % 2 = 0)

/-- What 42_estimator.md R127 asks of the parameter `LN64` of any implementation: `LN64(1) = +0.0`, and, for `q` in
(1, 65536], a finite value "within one unit in the last place of `ln(q)`", the unit of the binade of the real `ln(q)`. -/
def LnLegal (d : LnDepartures) : Prop :=
  lnOf d 0x3FF0000000000000#64 = 0#64 ∧
  ∀ q : Word64, Finite64 q → 1 < value64 q → value64 q ≤ 65536 →
    Finite64 (lnOf d q) ∧
    |((value64 (lnOf d q) : ℚ) : ℝ) - Real.log ((value64 q : ℚ) : ℝ)|
      ≤ (2 : ℝ) ^ (Int.log 2 (Real.log ((value64 q : ℚ) : ℝ)) - 52)

/-- The weight of one unit of the last place of a finite encoding. -/
def ulp64 (w : Word64) : ℚ := 2 ^ (effExp w) / 2 ^ 1075

end Sys2Proof.Machine
end

