-- ==== Sys2Proof/Certificates/Slice0/Obligations.lean ====
section
/-!
DEFINITION. The statements for the provers. Each docstring names the rules of spec/ that the statement formalises.
-/

open Sys2Proof Sys2Proof.Machine

/-! ## Reset, waiting, one step -/

/-- R200: hardware reset, applied between commands to any state, leaves every control register 0, every entry of `REG` absent,
and a command given afterwards is decoded as usual; `State.reset` has the same values. -/
def Obligations.HardwareResetLeavesResetValues : Prop :=
  (∀ (s : State) (rest : List HostEvent), ∃ t,
    step { s with input := .reset :: rest } = .next t ∧
    t.configured = false ∧ t.prec = 0#5 ∧ t.mode = .standard ∧ t.seed = 0#32 ∧ t.acc = 0#32 ∧
    t.result = 0#64 ∧ t.lastStatus = 0#8 ∧ t.stickyErr = false ∧ (∀ i, t.reg? i = none) ∧
    t.packedClear = s.packedClear ∧ t.lnDepartures = s.lnDepartures ∧ t.input = rest ∧
    (∀ w i, decode w = .ok i → step { t with input := [.command w] } = exec i { t with input := [] }) ∧
    (∀ w e, decode w = .error e →
      step { t with input := [.command w] } = .next (rejectWord e { t with input := [] }))) ∧
  State.reset.configured = false ∧ State.reset.prec = 0#5 ∧ State.reset.mode = .standard ∧
  State.reset.seed = 0#32 ∧ State.reset.acc = 0#32 ∧ State.reset.result = 0#64 ∧
  State.reset.lastStatus = 0#8 ∧ State.reset.stickyErr = false ∧ (∀ i, State.reset.reg? i = none)

/-- 60_exceptions.md §4 (R191), 70_reset_and_hazards.md §1 (R201): with nothing given the block waits with its state held; so
it does after reset. That this is a step that changes nothing is the model's choice (notes/assumptions/2.md). -/
def Obligations.BlockWaitsWithStateHeld : Prop :=
  (∀ s : State, s.input = [] → step s = .next s) ∧ State.reset.input = []

/-- 20_memory.md §2 (R43), 30_encoding.md §2 (R64): a step takes the next command word, decodes it and runs exactly that
command, or ends with the decoding error's status; the rest of the stream stays for later steps. The stream is the
model's own field (notes/assumptions/2.md). -/
def Obligations.StepRunsTheDecodedCommand : Prop :=
  ∀ (s : State) (w : Word64) (rest : List HostEvent), s.input = .command w :: rest →
    (∀ i, decode w = .ok i → step s = exec i { s with input := rest }) ∧
    (∀ e, decode w = .error e → ∃ t, step s = .next t ∧
      t = { s with
            input := rest, lastStatus := (match e with | .illegalOpcode => 1#8 | .reservedBits => 2#8)
            result := 0#64, stickyErr := true })

/-- 70_reset_and_hazards.md §4 (R213): every step answers a next state; the block never stops. -/
def Obligations.EveryStepAnswersANextState : Prop := ∀ s : State, ∃ t, step s = .next t

/-! ## Encoding -/

/-- 30_encoding.md §4 (R67): words written out from the table of assembly words decode to their commands, and words the spec
calls illegal or reserved are rejected by name. -/
def Obligations.WrittenWordsDecode : Prop :=
  decode 0x0000000000000000#64 = .ok .nop ∧
  decode 0xDEADBEEF00010801#64 = .ok (.config 8#6 .packed 0xDEADBEEF#32) ∧
  decode 0x0000000000002101#64 = .ok (.config 33#6 .standard 0#32) ∧
  decode 0xFF80C0B400000003#64 = .ok (.addHash 0xFF80C0B4#32) ∧
  decode 0x0000000000006F04#64 = .ok (.hashByte 0x6F#8) ∧
  decode 0x0000000000FFFF09#64 = .ok (.readReg 65535#16) ∧
  decode 0x000000000000000A#64 = .ok .status ∧
  decode 0xFFFFFFFFFFFFFF0B#64 = .error .illegalOpcode ∧
  decode 0x0000000001000009#64 = .error .reservedBits

/-- 30_encoding.md §1, §4 (R62, R67): decoding the word of any command gives that command back, every operand at every value its
field holds. -/
def Obligations.DecodeOfEncodeIsTheCommand : Prop := ∀ i : Instr, decode (encode i) = .ok i

/-- 30_encoding.md §2, §3 (R63, R65): each command has exactly one word, so whatever decodes is the word the assembler writes. -/
def Obligations.EncodeOfDecodeIsTheWord : Prop := ∀ (w : Word64) (i : Instr), decode w = .ok i → encode i = w

/-- R64, R65: decoding is total, and which of its three outcomes a word has is read off the opcode and the row's mask alone. -/
def Obligations.DecodingIsTotalWithNamedErrors : Prop :=
  ∀ w : Word64,
    (10 < (w.extractLsb' 0 8).toNat → decode w = .error .illegalOpcode) ∧
    (∀ (n : Nat) (pattern mask : Word64),
      (n, pattern, mask) ∈
        [(0x00, 0x0000000000000000#64, 0xFFFFFFFFFFFFFFFF#64), (0x01, 0x0000000000000001#64, 0x00000000FFFEC0FF#64),
         (0x02, 0x0000000000000002#64, 0xFFFFFFFFFFFFFFFF#64), (0x03, 0x0000000000000003#64, 0x00000000FFFFFFFF#64),
         (0x04, 0x0000000000000004#64, 0xFFFFFFFFFFFF00FF#64), (0x05, 0x0000000000000005#64, 0xFFFFFFFFFFFFFFFF#64),
         (0x06, 0x0000000000000006#64, 0xFFFFFFFFFFFFFFFF#64), (0x07, 0x0000000000000007#64, 0xFFFFFFFFFFFFFFFF#64),
         (0x08, 0x0000000000000008#64, 0xFFFFFFFFFFFFFFFF#64), (0x09, 0x0000000000000009#64, 0xFFFFFFFFFF0000FF#64),
         (0x0A, 0x000000000000000A#64, 0xFFFFFFFFFFFFFFFF#64)] →
      (w.extractLsb' 0 8).toNat = n →
      (w &&& mask ≠ pattern → decode w = .error .reservedBits) ∧
      (w &&& mask = pattern → ∃ i, decode w = .ok i ∧ (encode i).extractLsb' 0 8 = BitVec.ofNat 8 n)) ∧
    (∀ (e : DecodeError) (s : State), decode w = .error e → ∃ t, runWord w s = .next t ∧ SketchKept s t ∧
      EndsInError t (match e with | .illegalOpcode => 1#8 | .reservedBits => 2#8))

/-! ## The commands: each one's encoding, its effect and frame, and where it is turned away -/

/-- R160: NOP completes in every state and changes only the response; `STICKY_ERR` is not cleared. -/
def Obligations.NopChangesOnlyTheResponse : Prop :=
  EncodedAs 0x00#8 (fun w => w.extractLsb' 8 56 = 0#56) (fun _ => .nop) ∧
  ∀ s : State, ∃ t, exec .nop s = .next t ∧ EndsOk s t 0#64 ∧ SketchKept s t

/-- R161, R162: CONFIG constructs a new, empty sketch exactly when `4 <= p <= 16`, from every state; otherwise it ends with
`INVALID_PRECISION` and changes nothing but the response and the sticky bit. -/
def Obligations.ConfigConstructsAnEmptySketch : Prop :=
  EncodedAs 0x01#8 (fun w => w.extractLsb' 17 15 = 0#15 ∧ w.extractLsb' 14 2 = 0#2)
    (fun w => .config (w.extractLsb' 8 6) (if w.getLsbD 16 = true then .packed else .standard) (w.extractLsb' 32 32)) ∧
  ∀ (p : BitVec 6) (mode : Mode) (seed : Word32) (s : State),
    (4 ≤ p.toNat ∧ p.toNat ≤ 16 → ∃ t, exec (.config p mode seed) s = .next t ∧
      EndsOk s t 0#64 ∧ t.configured = true ∧ t.prec.toNat = p.toNat ∧ t.mode = mode ∧ t.seed = seed ∧
      t.acc = 0#32 ∧ (∀ i, i < 65536 → t.reg? i = some 0#5) ∧ SameHost s t) ∧
    (p.toNat < 4 ∨ 16 < p.toNat → ∃ t, exec (.config p mode seed) s = .next t ∧
      EndsInError t 4#8 ∧ SketchKept s t)

/-- R142: CLEAR zeroes every register where the strategy has it, and changes neither the configuration nor `ACC`; in Packed
mode with `PACKED_CLEAR = Refuse` it ends with `UNSUPPORTED`, unconfigured with `NOT_CONFIGURED`. -/
def Obligations.ClearZeroesEveryRegister : Prop :=
  EncodedAs 0x02#8 (fun w => w.extractLsb' 8 56 = 0#56) (fun _ => .clear) ∧
  ∀ s : State,
    (s.configured = true → (s.mode = .standard ∨ s.packedClear = .support) → ∃ t, exec .clear s = .next t ∧
      EndsOk s t 0#64 ∧ (∀ i, i < 65536 → t.reg? i = some 0#5) ∧ SameConfig s t ∧ t.acc = s.acc ∧ SameHost s t) ∧
    (s.configured = true → s.mode = .packed → s.packedClear = .refuse → ∃ t, exec .clear s = .next t ∧
      EndsInError t 5#8 ∧ SketchKept s t) ∧
    (s.configured = false → ∃ t, exec .clear s = .next t ∧ EndsInError t 3#8 ∧ SketchKept s t)

/-- R103, R104, R105: ADD_HASH raises the register its hash selects to the rank, changes no other register and nothing else;
the premise on `PREC` is its legal range. -/
def Obligations.AddHashRaisesOneRegister : Prop :=
  EncodedAs 0x03#8 (fun w => w.extractLsb' 8 24 = 0#24) (fun w => .addHash (w.extractLsb' 32 32)) ∧
  ∀ (h : Word32) (s : State),
    (s.configured = true → s.reg.wf = true → 4 ≤ s.prec.toNat → s.prec.toNat ≤ 16 →
      ∃ t, exec (.addHash h) s = .next t ∧ EndsOk s t 0#64 ∧
        (t.reg.read (h >>> (32 - s.prec.toNat)).toNat).toNat
          = max (s.reg.read (h >>> (32 - s.prec.toNat)).toNat).toNat
              (if s.mode = .packed then min (rank h s.prec.toNat) 31 else rank h s.prec.toNat) ∧
        (∀ j, j ≠ (h >>> (32 - s.prec.toNat)).toNat → t.reg.read j = s.reg.read j) ∧
        SameConfig s t ∧ t.acc = s.acc ∧ SameHost s t) ∧
    (s.configured = false → ∃ t, exec (.addHash h) s = .next t ∧ EndsInError t 3#8 ∧ SketchKept s t)

/-- R82: HASH_BYTE takes one accumulation step modulo `2^32`, the byte unsigned, and changes nothing else. -/
def Obligations.HashByteStepsTheAccumulator : Prop :=
  EncodedAs 0x04#8 (fun w => w.extractLsb' 16 48 = 0#48) (fun w => .hashByte (w.extractLsb' 8 8)) ∧
  ∀ (c : Byte) (s : State),
    (s.configured = true → ∃ t, exec (.hashByte c) s = .next t ∧ EndsOk s t 0#64 ∧
      t.acc.toNat = (s.acc.toNat * 31 + c.toNat) % 2 ^ 32 ∧ SameConfig s t ∧ SameRegs s t ∧ SameHost s t) ∧
    (s.configured = false → ∃ t, exec (.hashByte c) s = .next t ∧ EndsInError t 3#8 ∧ SketchKept s t)

/-- R83: HASH_RESET sets `ACC` to 0 and changes nothing else. -/
def Obligations.HashResetZeroesTheAccumulator : Prop :=
  EncodedAs 0x05#8 (fun w => w.extractLsb' 8 56 = 0#56) (fun _ => .hashReset) ∧
  ∀ s : State,
    (s.configured = true → ∃ t, exec .hashReset s = .next t ∧ EndsOk s t 0#64 ∧
      t.acc = 0#32 ∧ SameConfig s t ∧ SameRegs s t ∧ SameHost s t) ∧
    (s.configured = false → ∃ t, exec .hashReset s = .next t ∧ EndsInError t 3#8 ∧ SketchKept s t)

/-- R106: ADD_ELEM updates the sketch by `ACC` and then sets `ACC` to 0; the empty element (`ACC = 0`) raises `REG[0]` to
`32 - B`. -/
def Obligations.AddElemAddsTheAccumulatedHash : Prop :=
  EncodedAs 0x06#8 (fun w => w.extractLsb' 8 56 = 0#56) (fun _ => .addElem) ∧
  ∀ s : State,
    (s.configured = true → s.reg.wf = true → 4 ≤ s.prec.toNat → s.prec.toNat ≤ 16 →
      ∃ t, exec .addElem s = .next t ∧ EndsOk s t 0#64 ∧ t.acc = 0#32 ∧
        (t.reg.read (s.acc >>> (32 - s.prec.toNat)).toNat).toNat
          = max (s.reg.read (s.acc >>> (32 - s.prec.toNat)).toNat).toNat
              (if s.mode = .packed then min (rank s.acc s.prec.toNat) 31 else rank s.acc s.prec.toNat) ∧
        (∀ j, j ≠ (s.acc >>> (32 - s.prec.toNat)).toNat → t.reg.read j = s.reg.read j) ∧
        (s.acc = 0#32 → (t.reg.read 0).toNat = max (s.reg.read 0).toNat (32 - s.prec.toNat)) ∧
        SameConfig s t ∧ SameHost s t) ∧
    (s.configured = false → ∃ t, exec .addElem s = .next t ∧ EndsInError t 3#8 ∧ SketchKept s t)

/-- R124: ESTIMATE returns the encoding of the estimate, with the implementation's `LN64` whichever it is, and changes nothing but the response; `MODE` does not enter, and
a second ESTIMATE returns the same word. -/
def Obligations.EstimateReturnsTheEstimateAndKeepsTheSketch : Prop :=
  EncodedAs 0x07#8 (fun w => w.extractLsb' 8 56 = 0#56) (fun _ => .estimate) ∧
  ∀ s : State,
    (s.configured = true → ∃ t, exec .estimate s = .next t ∧
      EndsOk s t (estimateWith (lnOf s.lnDepartures) s.reg s.prec.toNat) ∧ t.result.getLsbD 63 = false ∧ SketchKept s t ∧
      exec .estimate t = .next t ∧
      (∀ mode, ∃ t', exec .estimate { s with mode := mode } = .next t' ∧ t'.result = t.result)) ∧
    (s.configured = false → ∃ t, exec .estimate s = .next t ∧ EndsInError t 3#8 ∧ SketchKept s t)

/-- R144: MEM_USAGE returns `floor(m * 5 / 8)` in Packed mode, which for every accepted precision is exactly `5 * 2^(B-3)`;
in Standard mode it ends with `UNSUPPORTED`. -/
def Obligations.MemUsageReportsThePackedFootprint : Prop :=
  EncodedAs 0x08#8 (fun w => w.extractLsb' 8 56 = 0#56) (fun _ => .memUsage) ∧
  ∀ s : State,
    (s.configured = true → s.mode = .packed → ∃ t, exec .memUsage s = .next t ∧
      t.lastStatus = 0#8 ∧ t.stickyErr = s.stickyErr ∧ t.result.toNat = 2 ^ s.prec.toNat * 5 / 8 ∧
      (4 ≤ s.prec.toNat → t.result.toNat = 5 * 2 ^ (s.prec.toNat - 3)) ∧ SketchKept s t) ∧
    (s.configured = true → s.mode = .standard → ∃ t, exec .memUsage s = .next t ∧
      EndsInError t 5#8 ∧ SketchKept s t) ∧
    (s.configured = false → ∃ t, exec .memUsage s = .next t ∧ EndsInError t 3#8 ∧ SketchKept s t)

/-- R143: READ_REG returns an in-use register and changes nothing but the response; an index of `m` or more ends with
`INDEX_RANGE`. -/
def Obligations.ReadRegReturnsAnInUseRegister : Prop :=
  EncodedAs 0x09#8 (fun w => w.extractLsb' 24 40 = 0#40) (fun w => .readReg (w.extractLsb' 8 16)) ∧
  ∀ (i : BitVec 16) (s : State),
    (s.configured = true → i.toNat < 2 ^ s.prec.toNat → ∃ t v, exec (.readReg i) s = .next t ∧
      s.reg? i.toNat = some v ∧ t.lastStatus = 0#8 ∧ t.result.toNat = v.toNat ∧ t.stickyErr = s.stickyErr ∧
      SketchKept s t) ∧
    (s.configured = true → 2 ^ s.prec.toNat ≤ i.toNat → ∃ t, exec (.readReg i) s = .next t ∧
      EndsInError t 6#8 ∧ SketchKept s t) ∧
    (s.configured = false → ∃ t, exec (.readReg i) s = .next t ∧ EndsInError t 3#8 ∧ SketchKept s t)

/-- R163: STATUS completes in every state and returns the configuration, the sticky bit as earlier commands left it, and 0 in
every other bit. -/
def Obligations.StatusReportsTheConfiguration : Prop :=
  EncodedAs 0x0A#8 (fun w => w.extractLsb' 8 56 = 0#56) (fun _ => .status) ∧
  ∀ s : State, ∃ t, exec .status s = .next t ∧ t.lastStatus = 0#8 ∧ t.stickyErr = s.stickyErr ∧ SketchKept s t ∧
    t.result.getLsbD 0 = s.configured ∧ (t.result.getLsbD 1 = true ↔ s.mode = .packed) ∧
    t.result.extractLsb' 8 5 = s.prec ∧ t.result.getLsbD 16 = s.stickyErr ∧ t.result.extractLsb' 32 32 = s.seed ∧
    (∀ k, (2 ≤ k ∧ k < 8) ∨ (13 ≤ k ∧ k < 16) ∨ (17 ≤ k ∧ k < 32) → t.result.getLsbD k = false)

/-! ## Errors -/

/-- R181: NOP, CONFIG and STATUS never end with `NOT_CONFIGURED`; every other command does while `CONFIGURED = 0`. -/
def Obligations.UnconfiguredBlockAcceptsOnlyThree : Prop :=
  ∀ (i : Instr) (s : State), s.configured = false → ∃ t, exec i s = .next t ∧
    (needsConfigured i = true → EndsInError t 3#8 ∧ SketchKept s t) ∧
    (needsConfigured i = false → t.lastStatus ≠ 3#8)

/-- R182: a command that ends with a status other than `OK` has the error's effect and no other, whatever the word and the
state, and the block then runs the next word it is given. -/
def Obligations.AnErrorHasNoOtherEffect : Prop :=
  ∀ (s t : State) (w : Word64), runWord w s = .next t → t.lastStatus ≠ 0#8 →
    t = { s with lastStatus := t.lastStatus, result := 0#64, stickyErr := true } ∧
    ∀ w' : Word64, ∃ t', runWord w' t = .next t'

/-- R183: which status a command word ends with: the first that applies of the six errors, in the rule's order, else `OK`. -/
def Obligations.StatusFollowsTheErrorPriority : Prop :=
  ∀ (s : State) (w : Word64), ∃ t, runWord w s = .next t ∧
    t.lastStatus =
      (if 10 < (w.extractLsb' 0 8).toNat then 1#8
       else if decode w = .error .reservedBits then 2#8
       else if s.configured = false ∧ w.extractLsb' 0 8 ∉ [0x00#8, 0x01#8, 0x0A#8] then 3#8
       else if w.extractLsb' 0 8 = 0x01#8
          ∧ ((w.extractLsb' 8 6).toNat < 4 ∨ 16 < (w.extractLsb' 8 6).toNat) then 4#8
       else if (w.extractLsb' 0 8 = 0x02#8 ∧ s.mode = .packed ∧ s.packedClear = .refuse)
          ∨ (w.extractLsb' 0 8 = 0x08#8 ∧ s.mode = .standard) then 5#8
       else if w.extractLsb' 0 8 = 0x09#8 ∧ 2 ^ s.prec.toNat ≤ (w.extractLsb' 8 16).toNat then 6#8
       else 0#8)

/-! ## Whole-machine rules -/

/-- 10_state.md (R20, R23, R24), 60_exceptions.md (R180, R182): the invariant holds at reset. The spec leaves `REG` unspecified
there (R23, R200): that nothing of it is listed is the model's choice (DESIGN CHOICE, notes/assumptions/1.md), and so is the
canonical form of the array (notes/assumptions/8.md). -/
def Obligations.ResetMeetsTheInvariant : Prop := SketchInv State.reset

/-- 10_state.md (R20, R23, R24), 60_exceptions.md (R180, R182): every step keeps the invariant, from every state that has it:
the legal values, the rank bound, the zero unused entries, the legal statuses and error responses. Two of its clauses are the
model's choice: that nothing of `REG` is listed while `CONFIGURED = 0`, where the spec leaves it unspecified (DESIGN CHOICE,
notes/assumptions/1.md), and the canonical form of the array (notes/assumptions/8.md). -/
def Obligations.EveryStepKeepsTheInvariant : Prop := ∀ s t : State, SketchInv s → step s = .next t → SketchInv t

/-- R23: unused entries (index `m` or more) are written only by CONFIG and CLEAR, which zero every entry, and no command result
and no in-use register depends on one; after reset every entry is absent. -/
def Obligations.UnusedEntriesAreNeverRead : Prop :=
  (∀ (i : Instr) (s : State) (reg' : Memory), s.reg.wf = true → reg'.wf = true →
    (∀ k, k < 2 ^ s.prec.toNat → reg'.read k = s.reg.read k) → ∃ t t',
      exec i s = .next t ∧ exec i { s with reg := reg' } = .next t' ∧
      t' = { t with reg := t'.reg } ∧ (∀ k, k < 2 ^ t.prec.toNat → t'.reg.read k = t.reg.read k)) ∧
  (∀ (i : Instr) (s : State), i ≠ .clear → (∀ p mode seed, i ≠ .config p mode seed) → ∃ t,
    exec i s = .next t ∧ ∀ k, 2 ^ s.prec.toNat ≤ k → t.reg.read k = s.reg.read k) ∧
  (∀ (i : Instr) (s : State), (i = .clear ∨ ∃ p mode seed, i = .config p mode seed) → ∃ t,
    exec i s = .next t ∧ (t.lastStatus = 0#8 → ∀ k, k < 65536 → t.reg? k = some 0#5)) ∧
  (∀ (s : State) (k : Nat), (hardwareReset s).reg? k = none)

/-- R25: no register is ever lowered by a command that is not CLEAR or CONFIG. -/
def Obligations.RegistersAreNeverLowered : Prop :=
  ∀ (s t : State) (w : Word64), SketchInv s → decode w ≠ .ok .clear →
    (∀ p mode seed, decode w ≠ .ok (.config p mode seed)) → runWord w s = .next t →
    ∀ i, (s.reg.read i).toNat ≤ (t.reg.read i).toNat

/-- R27: `CONFIGURED`, `PREC` and `MODE` are written only by a CONFIG that ends with `OK`, and otherwise only by reset. -/
def Obligations.ConfigurationIsWrittenByConfigAlone : Prop :=
  (∀ (s t : State) (w : Word64), runWord w s = .next t →
    (t.configured = s.configured ∧ t.prec = s.prec ∧ t.mode = s.mode) ∨
    (∃ p mode seed, decode w = .ok (.config p mode seed) ∧ t.lastStatus = 0#8 ∧
      t.configured = true ∧ t.prec.toNat = p.toNat ∧ t.mode = mode)) ∧
  ∀ s : State, (hardwareReset s).configured = false ∧ (hardwareReset s).prec = 0#5 ∧ (hardwareReset s).mode = .standard

/-- R28, R84: the seed has no effect: two states that differ in `SEED` alone answer every command but STATUS alike, and differ
in `SEED` alone afterwards; `SEED` is written only by a CONFIG that ends with `OK`. -/
def Obligations.TheSeedHasNoEffect : Prop :=
  (∀ (i : Instr) (s : State) (seed : Word32), i ≠ .status → ∃ t t',
    exec i s = .next t ∧ exec i { s with seed := seed } = .next t' ∧ t' = { t with seed := t'.seed }) ∧
  (∀ (i : Instr) (s t : State), exec i s = .next t → t.seed ≠ s.seed →
    ∃ p mode, i = .config p mode t.seed ∧ t.lastStatus = 0#8)

/-- R29: `ACC` is written by HASH_BYTE (the accumulation step) and set to 0 by HASH_RESET, ADD_ELEM and CONFIG, each where it ends
with `OK`, and by reset; no other command changes it, CLEAR among them; and no command returns it. -/
def Obligations.TheAccumulatorHasFourWriters : Prop :=
  (∀ s : State, (hardwareReset s).acc = 0#32) ∧
  (∀ (i : Instr) (s : State) (acc : Word32), ∃ t t', exec i s = .next t ∧ exec i { s with acc := acc } = .next t' ∧
    t'.response = t.response) ∧
  (∀ (i : Instr) (s t : State), exec i s = .next t →
    (t.acc = s.acc) ∨ (t.lastStatus = 0#8 ∧
      ((∃ c, i = .hashByte c ∧ t.acc.toNat = (s.acc.toNat * 31 + c.toNat) % 2 ^ 32) ∨
       (i = .hashReset ∧ t.acc = 0#32) ∨ (i = .addElem ∧ t.acc = 0#32) ∨
       (∃ p mode seed, i = .config p mode seed ∧ t.acc = 0#32)))) ∧
  ∀ (i : Instr) (s : State), ∃ t, exec i s = .next t ∧ (i = .clear → t.acc = s.acc) ∧
    (t.lastStatus = 0#8 →
      (∀ c, i = .hashByte c → t.acc.toNat = (s.acc.toNat * 31 + c.toNat) % 2 ^ 32) ∧
      (i = .hashReset → t.acc = 0#32) ∧ (i = .addElem → t.acc = 0#32) ∧
      (∀ p mode seed, i = .config p mode seed → t.acc = 0#32))

/-- R32: `STICKY_ERR` is 1 after a command exactly when it was 1 or the command ended with a status other than `OK`: errors set
it, no command clears it, and reset does. -/
def Obligations.StickyErrorIsSetAndNeverCleared : Prop :=
  (∀ (s t : State) (w : Word64), runWord w s = .next t →
    (t.stickyErr = true ↔ (s.stickyErr = true ∨ t.lastStatus ≠ 0#8))) ∧
  ∀ s : State, (hardwareReset s).stickyErr = false

/-- 10_state.md §4 (R31, R33), 70_reset_and_hazards.md §3 (R210): a command overwrites the response and does not read
`LAST_STATUS` and `RESULT`, nor, but for STATUS, which reports it in bit 16 (R163), `STICKY_ERR`: two states that differ in these
three alone end alike but for the sticky bit and that bit of STATUS's result. -/
def Obligations.TheOldResponseIsNeverRead : Prop :=
  ∀ (i : Instr) (s : State) (status : BitVec 8) (result : Word64) (sticky : Bool), ∃ t t',
    exec i s = .next t ∧
    exec i { s with lastStatus := status, result := result, stickyErr := sticky } = .next t' ∧
    t' = { t with result := t'.result, stickyErr := t'.stickyErr } ∧
    (∀ k, i ≠ .status ∨ k ≠ 16 → t'.result.getLsbD k = t.result.getLsbD k)

/-- R44: NOP, ESTIMATE, READ_REG, STATUS and MEM_USAGE have no side effect on the sketch, and repeating one gives the same
state again. -/
def Obligations.ReadingCommandsAreIdempotent : Prop :=
  ∀ (i : Instr) (s : State), (i = .nop ∨ i = .estimate ∨ i = .status ∨ i = .memUsage ∨ ∃ k, i = .readReg k) →
    ∃ t, exec i s = .next t ∧ SketchKept s t ∧ exec i t = .next t ∧
      (t.lastStatus = 0#8 → t.stickyErr = s.stickyErr)

/-! ## The hash front end -/

/-- R80: the hash is `(Σ c_k * 31^(n-1-k)) mod 2^32`, and the hash of the empty element is 0. -/
def Obligations.HashIsThePolynomial : Prop :=
  elementHash [] = 0#32 ∧
  ∀ element : List Byte,
    (elementHash element).toNat
      = (∑ k ∈ Finset.range element.length,
          (element.getD k 0#8).toNat * 31 ^ (element.length - 1 - k)) % 2 ^ 32

/-- 40_hash.md §2 (after R82): after HASH_BYTE `c_0` to `c_(n-1)` from any accumulator, `ACC` is the hash continued from it, and
nothing else but the response changes; from `ACC = 0` it is `Hash(c_0 .. c_(n-1))`. -/
def Obligations.HashBytesAccumulateTheHash : Prop :=
  ∀ (element : List Byte) (s : State), s.configured = true → ∃ t,
    execAll (element.map Instr.hashByte) s = .next t ∧ SameConfig s t ∧ SameRegs s t ∧ SameHost s t ∧
    t.stickyErr = s.stickyErr ∧ t.acc = hashFrom s.acc element ∧ (s.acc = 0#32 → t.acc = elementHash element)

/-- 30_encoding.md §4 (R68): `ADD "s"` adds the element whatever `ACC` held: the sketch is updated by the hash of its bytes as by
one ADD_HASH, and `ACC` is 0 afterwards; `NEW p, mode` is CONFIG with seed 0. -/
def Obligations.AddPseudoInstructionAddsTheElement : Prop :=
  (∀ (element : List Byte) (s : State), s.configured = true → ∃ t t',
    execAll (addExpansion element) s = .next t ∧ exec (.addHash (elementHash element)) s = .next t' ∧
    t = { t' with acc := 0#32 }) ∧
  (∀ (p : Nat) (mode : Mode), expand (.new p mode) = expand (.config p mode 0))

/-! ## The update -/

/-- R100: the index is the top `B` bits of the hash, below `2^B`. -/
def Obligations.IndexIsTheTopBits : Prop :=
  ∀ (h : Word32) (B : Nat), 4 ≤ B → B ≤ 16 →
    index h B < 2 ^ B ∧ index h B * 2 ^ (32 - B) + h.toNat % 2 ^ (32 - B) = h.toNat

/-- R101: the rank lies in `[1, 32 - B]`; an all-zero low field gives `32 - B`; otherwise it is one plus the number of leading
zeros of the `32 - B`-bit field: `r` with `2^(32-B-r) <= field < 2^(32-B-r+1)`. -/
def Obligations.RankCountsLeadingZerosOfTheLowField : Prop :=
  ∀ (h : Word32) (B : Nat), 4 ≤ B → B ≤ 16 →
    1 ≤ rank h B ∧ rank h B ≤ 32 - B ∧
    (h.toNat % 2 ^ (32 - B) = 0 → rank h B = 32 - B) ∧
    (h.toNat % 2 ^ (32 - B) ≠ 0 →
      2 ^ (32 - B - rank h B) ≤ h.toNat % 2 ^ (32 - B) ∧
      h.toNat % 2 ^ (32 - B) < 2 ^ (32 - B - rank h B + 1))

/-- R102: the Packed clamp never changes a value at an accepted precision. -/
def Obligations.PackedClampNeverChangesARank : Prop :=
  ∀ (h : Word32) (B : Nat) (mode : Mode), 4 ≤ B → B ≤ 16 →
    storedRank .packed (rank h B) = min (rank h B) 31 ∧ storedRank mode (rank h B) = rank h B

/-- R107: after any sequence of commands other than CLEAR and CONFIG, the empty one included, every in-use register is the larger
of its old value and the largest rank of a hash that selects it, over the hashes that ADD_HASH and ADD_ELEM applied; two
sequences that apply the same set of hashes reach the same registers. The hashes applied by ADD_HASH commands are their
operands, and by an added element its hash; and ADD_HASH sequences with the same set leave the same state. -/
def Obligations.UpdatesDependOnlyOnTheSetOfHashes : Prop :=
  (∀ (acc : Word32) (hs : List Word32), appliedHashes acc (hs.map Instr.addHash) = hs) ∧
  (∀ (acc : Word32) (element : List Byte), appliedHashes acc (addExpansion element) = [elementHash element]) ∧
  ∀ s : State, SketchInv s → s.configured = true →
    (∀ cs : List Instr, (∀ c ∈ cs, restarts c = false) → ∃ t, execAll cs s = .next t ∧
      (∀ i, i < 2 ^ s.prec.toNat → (t.reg.read i).toNat
        = max (s.reg.read i).toNat (largestRank (appliedHashes s.acc cs) s.prec.toNat i)) ∧
      (∀ cs' : List Instr, (∀ c ∈ cs', restarts c = false) →
        (∀ h, h ∈ appliedHashes s.acc cs' ↔ h ∈ appliedHashes s.acc cs) → ∃ t',
          execAll cs' s = .next t' ∧ t'.reg = t.reg)) ∧
    (∀ hs : List Word32, ∃ t, execAll (hs.map Instr.addHash) s = .next t ∧
      (∀ i, i < 2 ^ s.prec.toNat → (t.reg.read i).toNat
        = max (s.reg.read i).toNat (largestRank hs s.prec.toNat i)) ∧
      (∀ hs' : List Word32, (∀ h, h ∈ hs' ↔ h ∈ hs) → execAll (hs'.map Instr.addHash) s = .next t))

/-- R108, R129: the storage strategies reach the same registers, and then the same estimate, by any sequence of commands other
than CLEAR and CONFIG, whether its updates are ADD_HASH or ADD_ELEM commands; without MEM_USAGE and STATUS, whose answers
depend on `MODE`, they reach the same state but for `MODE`; and sketches of one implementation with equal `PREC` and equal
registers in use return the same estimate whatever their `MODE`. -/
def Obligations.StorageStrategiesAgree : Prop :=
  (∀ s s' : State, s.configured = true → s'.configured = true → s'.prec = s.prec → s'.lnDepartures = s.lnDepartures →
    (∀ k, k < 2 ^ s.prec.toNat → s'.reg.read k = s.reg.read k) → ∃ t t',
      exec .estimate s = .next t ∧ exec .estimate s' = .next t' ∧ t'.result = t.result) ∧
  (∀ (cs : List Instr) (s : State), SketchInv s → s.configured = true → (∀ c ∈ cs, restarts c = false) → ∃ t t' u u',
    execAll cs { s with mode := .standard } = .next t ∧ execAll cs { s with mode := .packed } = .next t' ∧
    t'.reg = t.reg ∧ exec .estimate t = .next u ∧ exec .estimate t' = .next u' ∧ u'.result = u.result ∧
    ((∀ c ∈ cs, c ≠ .memUsage ∧ c ≠ .status) → t' = { t with mode := .packed }))

/-! ## The estimator -/

/-- 00_scope.md §5 (R8): `rne64` rounds an exact fraction to the nearest binary64 value, ties to even, for every value up to
`2^1023` (no estimate is above `2^32`). -/
def Obligations.RoundingIsToNearestTiesToEven : Prop :=
  ∀ n d : Nat, 0 < d → n ≤ d * 2 ^ 1023 → IsRne64 (rne64 n d) ((n : ℝ) / (d : ℝ))

/-- R120: the harmonic sum is the exact sum over the registers in use, an integer multiple of `2^-28` below `2^17`, and lies in
`[m * 2^(B-32), m]`, equal to `m` exactly when every register is 0. -/
def Obligations.HarmonicSumIsExact : Prop :=
  ∀ s : State, SketchInv s → s.configured = true →
    ((harmonicSum s.reg s.prec.toNat : ℚ) / 2 ^ 31
      = ∑ i ∈ Finset.range (2 ^ s.prec.toNat), (1 : ℚ) / 2 ^ (s.reg.read i).toNat) ∧
    2 ^ 3 ∣ harmonicSum s.reg s.prec.toNat ∧ harmonicSum s.reg s.prec.toNat / 2 ^ 3 < 2 ^ 45 ∧
    2 ^ s.prec.toNat * 2 ^ (s.prec.toNat - 1) ≤ harmonicSum s.reg s.prec.toNat ∧
    harmonicSum s.reg s.prec.toNat ≤ 2 ^ s.prec.toNat * 2 ^ 31 ∧
    (harmonicSum s.reg s.prec.toNat = 2 ^ s.prec.toNat * 2 ^ 31 ↔
      ∀ i, i < 2 ^ s.prec.toNat → s.reg.read i = 0#5)

/-- R121: the zero count is the number of in-use registers equal to 0. -/
def Obligations.ZeroCountCountsZeroRegisters : Prop :=
  ∀ (reg : Memory) (B : Nat),
    zeroCount reg B = ((Finset.range (2 ^ B)).filter (fun i => reg.read i = 0#5)).card ∧ zeroCount reg B ≤ 2 ^ B

/-- R122: the raw estimate is `ALPHA * m^2 / S` rounded once, `ALPHA = 3248446411222339 / 2^52`, and lies in
`[ALPHA * m, ALPHA * 2^32]`. -/
def Obligations.RawEstimateIsTheRoundedHarmonicMean : Prop :=
  ∀ s : State, SketchInv s → s.configured = true →
    IsRne64 (rawEstimate s.reg s.prec.toNat)
      ((3248446411222339 / 2 ^ 52 : ℝ) * (2 ^ s.prec.toNat) ^ 2
        / ∑ i ∈ Finset.range (2 ^ s.prec.toNat), (1 : ℝ) / 2 ^ (s.reg.read i).toNat) ∧
    (3248446411222339 / 2 ^ 52 : ℚ) * 2 ^ s.prec.toNat ≤ value64 (rawEstimate s.reg s.prec.toNat) ∧
    value64 (rawEstimate s.reg s.prec.toNat) ≤ (3248446411222339 / 2 ^ 52 : ℚ) * 2 ^ 32

/-- R123: when the raw estimate is at most `2.5 * m` and some register is 0, the estimate is `m * LN64(q)` with `q` the rounded
real quotient `m / V`, the product exact for every implementation's `LN64(q)` that is finite and below 12, as this block's is;
otherwise it is the raw estimate. -/
def Obligations.EstimateTakesTheSmallRangeBranch : Prop :=
  ∀ s : State, SketchInv s → s.configured = true →
    (value64 (rawEstimate s.reg s.prec.toNat) ≤ 5 / 2 * 2 ^ s.prec.toNat ∧ 0 < zeroCount s.reg s.prec.toNat →
      ∃ q : Word64, IsRne64 q ((2 ^ s.prec.toNat : ℝ) / (zeroCount s.reg s.prec.toNat : ℝ)) ∧
        1 ≤ value64 q ∧ value64 q ≤ 2 ^ s.prec.toNat ∧
        (value64 q = 1 ↔ zeroCount s.reg s.prec.toNat = 2 ^ s.prec.toNat) ∧
        (Finite64 (lnOf s.lnDepartures q) → value64 (lnOf s.lnDepartures q) < 12 →
          value64 (estimateWith (lnOf s.lnDepartures) s.reg s.prec.toNat)
            = 2 ^ s.prec.toNat * value64 (lnOf s.lnDepartures q)) ∧
        (s.lnDepartures = [] → lnOf s.lnDepartures q = ln64 q ∧ Finite64 (ln64 q) ∧ value64 (ln64 q) < 12)) ∧
    (¬ (value64 (rawEstimate s.reg s.prec.toNat) ≤ 5 / 2 * 2 ^ s.prec.toNat ∧ 0 < zeroCount s.reg s.prec.toNat) →
      estimateWith (lnOf s.lnDepartures) s.reg s.prec.toNat = rawEstimate s.reg s.prec.toNat)

/-- R125: when every in-use register is 0, `S = m`, `raw = ALPHA * m`, `V = m` and ESTIMATE returns exactly `+0.0`, so it does right
after CONFIG and after CLEAR, in every implementation whose logarithm has `LN64(1) = +0.0`, as R127 asks and as this block's
has. -/
def Obligations.EmptySketchEstimatesZero : Prop :=
  (∀ s : State, SketchInv s → s.configured = true → (∀ i, i < 2 ^ s.prec.toNat → s.reg.read i = 0#5) →
    harmonicSum s.reg s.prec.toNat = 2 ^ s.prec.toNat * 2 ^ 31 ∧ zeroCount s.reg s.prec.toNat = 2 ^ s.prec.toNat ∧
    value64 (rawEstimate s.reg s.prec.toNat) = 3248446411222339 / 2 ^ 52 * 2 ^ s.prec.toNat ∧
    (lnOf s.lnDepartures 0x3FF0000000000000#64 = 0#64 → ∃ t,
      exec .estimate s = .next t ∧ t.lastStatus = 0#8 ∧ t.result = 0x0000000000000000#64)) ∧
  (∀ (p : BitVec 6) (mode : Mode) (seed : Word32) (s : State), 4 ≤ p.toNat → p.toNat ≤ 16 →
    lnOf s.lnDepartures 0x3FF0000000000000#64 = 0#64 → ∃ t u,
      exec (.config p mode seed) s = .next t ∧ exec .estimate t = .next u ∧ u.lastStatus = 0#8 ∧ u.result = 0#64) ∧
  (∀ s : State, SketchInv s → s.configured = true → (s.mode = .standard ∨ s.packedClear = .support) →
    lnOf s.lnDepartures 0x3FF0000000000000#64 = 0#64 → ∃ t u,
      exec .clear s = .next t ∧ exec .estimate t = .next u ∧ u.lastStatus = 0#8 ∧ u.result = 0#64) ∧
  lnOf State.reset.lnDepartures 0x3FF0000000000000#64 = 0#64 ∧
  (∀ (ln : Word64 → Word64) (B : Nat), 4 ≤ B → B ≤ 16 → ln 0x3FF0000000000000#64 = 0#64 →
    estimateWith ln [] B = 0#64)

/-- R126: the estimate is finite, non-negative, normal or `+0.0`, in this block and in every implementation whose `LN64(q)` is so
and below 12 at the argument taken; the harmonic sum is never 0. -/
def Obligations.EstimatesAreNormalOrZero : Prop :=
  ∀ s : State, SketchInv s → s.configured = true →
    0 < harmonicSum s.reg s.prec.toNat ∧ NormalOrZero64 (rawEstimate s.reg s.prec.toNat) ∧
    (s.lnDepartures = [] → NormalOrZero64 (estimateWith (lnOf s.lnDepartures) s.reg s.prec.toNat)) ∧
    (NormalOrZero64 (lnOf s.lnDepartures (rne64 (2 ^ s.prec.toNat) (zeroCount s.reg s.prec.toNat))) →
      value64 (lnOf s.lnDepartures (rne64 (2 ^ s.prec.toNat) (zeroCount s.reg s.prec.toNat))) < 12 →
      NormalOrZero64 (estimateWith (lnOf s.lnDepartures) s.reg s.prec.toNat))

/-- 42_estimator.md §1 (R127): `LN64(1) = +0.0`; for every normal `q` in [1, 65536] the computed logarithm is within one unit in
the last place of the real one, and it is the correctly rounded value wherever the model's two bounds round alike; so this
block's logarithm meets what R127 asks of any implementation's, in the wording of `LnLegal`, whose unit in the last place is
taken in the binade of the real `ln(q)` (DEDUCED, notes/assumptions/16.md). The working precision is the model's choice
(notes/assumptions/5.md). -/
def Obligations.LogarithmIsCorrectlyRoundedWhereCertified : Prop :=
  ln64 0x3FF0000000000000#64 = 0#64 ∧ LnLegal [] ∧
  ∀ q : Word64, Finite64 q → 1 ≤ value64 q → value64 q ≤ 65536 →
    |((value64 (ln64 q) : ℚ) : ℝ) - Real.log ((value64 q : ℚ) : ℝ)| < ((ulp64 (ln64 q) : ℚ) : ℝ) ∧
    (lnCertified q = true → IsRne64 (ln64 q) (Real.log ((value64 q : ℚ) : ℝ)))

/-- 42_estimator.md §1 (R127): at every precision up to 8, the model's two bounds of the logarithm of each argument `RNE64(m / V)`
that ESTIMATE can take round alike. The certificate is the model's own (DESIGN CHOICE, notes/assumptions/5.md) and all that is
said here; that a certified logarithm is correctly rounded is said by `LogarithmIsCorrectlyRoundedWhereCertified`, and both by
`EveryLogarithmTakenIsCorrectlyRounded`. -/
def Obligations.LogarithmsUpToPrecisionEightAreCertified : Prop :=
  ∀ B V : Nat, 4 ≤ B → B ≤ 8 → 1 ≤ V → V ≤ 2 ^ B → lnCertified (rne64 (2 ^ B) V) = true

/-- 42_estimator.md §1 (R127): at every accepted precision, the logarithm of each argument `RNE64(m / V)` that ESTIMATE can take is
certified and is the binary64 value nearest the real one. The certificate is the model's (notes/assumptions/5.md). -/
def Obligations.EveryLogarithmTakenIsCorrectlyRounded : Prop :=
  ∀ B V : Nat, 4 ≤ B → B ≤ 16 → 1 ≤ V → V ≤ 2 ^ B →
    lnCertified (rne64 (2 ^ B) V) = true ∧
    IsRne64 (ln64 (rne64 (2 ^ B) V)) (Real.log ((value64 (rne64 (2 ^ B) V) : ℚ) : ℝ))

/-- 00_scope.md §4 (R6), 42_estimator.md §1 (R127): "A model takes `LN64` ... as arguments". ESTIMATE runs with the logarithm of
the state's parameter, no step changes the parameter, and for every function on binary64 some value of the parameter makes
ESTIMATE answer with that function at every accepted precision. That the parameter is a list of departures is the model's
choice (notes/assumptions/16.md). -/
def Obligations.EveryLogarithmIsAValueOfTheParameter : Prop :=
  (∀ s t : State, step s = .next t → t.lnDepartures = s.lnDepartures ∧ t.packedClear = s.packedClear) ∧
  (∀ ln : Word64 → Word64, ∃ d : LnDepartures, ∀ s : State, s.configured = true → s.prec.toNat ≤ 16 → ∃ t,
    exec .estimate { s with lnDepartures := d } = .next t ∧ t.lastStatus = 0#8 ∧
    t.result = estimateWith ln s.reg s.prec.toNat)

/-! ## Layout and assembler -/

/-- 10_state.md §2 (R26), 92_eei_decisions.md D27: both layouts hold the same 5-bit values. The layout is a reference that no rule
depends on (notes/assumptions/8.md). -/
def Obligations.LayoutsHoldTheRegisters : Prop :=
  ∀ (reg : Memory) (i k : Nat), k < 5 →
    (standardWord reg i).toNat = (reg.read i).toNat ∧
    packedBit reg (5 * i + k) = (reg.read i).getLsbD k ∧
    (packedByte reg ((5 * i + k) / 8)).getLsbD ((5 * i + k) % 8) = (reg.read i).getLsbD k

/-- 30_encoding.md §4 (R67, R68): each assembly line and the commands its words decode to, every operand as the number written;
a line with numbers is refused exactly when an operand does not fit its field (a `p` above 63, a `c` above 255, an `i` above
65535, an `h` or seed above `2^32 - 1`: R67). A `p` of 0 to 3 or 17 to 63 is assembled, and the block then ends the command
with `INVALID_PRECISION`. That an `ADD` string with a character outside printable ASCII (0x20 to 0x7E) is refused is no rule of
the spec, which says nothing of such a string: it is the model's choice (DESIGN CHOICE, notes/assumptions/12.md). -/
def Obligations.AssembledWordsDecodeToTheirCommands : Prop :=
  (∀ (p : Nat) (mode : Mode) (seed : Nat),
    (p < 64 → seed < 2 ^ 32 → ∃ w p' seed', assemble (.config p mode seed) = some [w] ∧
      decode w = .ok (.config p' mode seed') ∧ p'.toNat = p ∧ seed'.toNat = seed ∧
      (p < 4 ∨ 16 < p → ∀ s, ∃ t, runWord w s = .next t ∧ EndsInError t 4#8)) ∧
    (64 ≤ p ∨ 2 ^ 32 ≤ seed → assemble (.config p mode seed) = none)) ∧
  (∀ (p : Nat) (mode : Mode),
    (p < 64 → ∃ w p', assemble (.new p mode) = some [w] ∧ decode w = .ok (.config p' mode 0#32) ∧ p'.toNat = p) ∧
    (64 ≤ p → assemble (.new p mode) = none)) ∧
  (∀ h : Nat,
    (h < 2 ^ 32 → ∃ w h', assemble (.addHash h) = some [w] ∧ decode w = .ok (.addHash h') ∧ h'.toNat = h) ∧
    (2 ^ 32 ≤ h → assemble (.addHash h) = none)) ∧
  (∀ c : Nat,
    (c < 256 → ∃ w c', assemble (.hashByte c) = some [w] ∧ decode w = .ok (.hashByte c') ∧ c'.toNat = c) ∧
    (256 ≤ c → assemble (.hashByte c) = none)) ∧
  (∀ i : Nat,
    (i < 65536 → ∃ w i', assemble (.readReg i) = some [w] ∧ decode w = .ok (.readReg i') ∧ i'.toNat = i) ∧
    (65536 ≤ i → assemble (.readReg i) = none)) ∧
  (∀ element : List Nat,
    ((∀ c ∈ element, 0x20 ≤ c ∧ c ≤ 0x7E) → ∃ (ws : List Word64) (bytes : List Byte),
      assemble (.add element) = some ws ∧
      ws.map decode
        = Except.ok .hashReset :: (bytes.map (fun b => Except.ok (Instr.hashByte b)) ++ [Except.ok .addElem]) ∧
      bytes.map (fun b => b.toNat) = element) ∧
    ((∃ c ∈ element, c < 0x20 ∨ 0x7E < c) → assemble (.add element) = none)) ∧
  assemble .nop = some [0x0000000000000000#64] ∧ decode 0x0000000000000000#64 = .ok .nop ∧
  assemble .clear = some [0x0000000000000002#64] ∧ decode 0x0000000000000002#64 = .ok .clear ∧
  assemble .hashReset = some [0x0000000000000005#64] ∧ decode 0x0000000000000005#64 = .ok .hashReset ∧
  assemble .addElem = some [0x0000000000000006#64] ∧ decode 0x0000000000000006#64 = .ok .addElem ∧
  assemble .estimate = some [0x0000000000000007#64] ∧ decode 0x0000000000000007#64 = .ok .estimate ∧
  assemble .memUsage = some [0x0000000000000008#64] ∧ decode 0x0000000000000008#64 = .ok .memUsage ∧
  assemble .status = some [0x000000000000000A#64] ∧ decode 0x000000000000000A#64 = .ok .status
end

