-- ==== Sys2Proof/Laws/Estimator.lean ====
section
/-!
SUPPORT. The sum by halving is the plain sum, and small facts about the exact fractions behind binary64 encodings.
-/

namespace Sys2Proof.Machine

/-- The sum by halving is the sum over `2^k` consecutive indices. -/
theorem sumPow2_eq_sum (f : Nat → Nat) (k base : Nat) :
    sumPow2 f k base = ∑ i ∈ Finset.range (2 ^ k), f (base + i) := by
  induction k generalizing base with
  | zero => simp [sumPow2]
  | succ k ih =>
    rw [sumPow2, ih, ih, pow_succ, Nat.mul_two, Finset.sum_range_add]
    simp [Nat.add_assoc]

/-- The harmonic sum as a plain sum, in units of `2^-31` (42_estimator.md R120). -/
theorem harmonicSum_eq_sum (reg : Memory) (B : Nat) :
    harmonicSum reg B = ∑ i ∈ Finset.range (2 ^ B), 2 ^ (31 - (reg.read i).toNat) := by
  simp [harmonicSum, sumPow2_eq_sum]

/-- The zero count as a plain sum (42_estimator.md R121). -/
theorem zeroCount_eq_sum (reg : Memory) (B : Nat) :
    zeroCount reg B = ∑ i ∈ Finset.range (2 ^ B), if reg.read i = 0#5 then 1 else 0 := by
  simp [zeroCount, sumPow2_eq_sum]

/-- Denominators are positive. -/
theorem den64_pos (w : Word64) : 0 < den64 w := by
  simp [den64, Nat.shiftLeft_eq]

@[simp] theorem rne64_zero (d : Nat) : rne64 0 d = 0#64 := rfl

@[simp] theorem lnOf_nil (q : Word64) : lnOf [] q = ln64 q := rfl

@[simp] theorem lnOf_self (q v : Word64) (d : LnDepartures) : lnOf ((q, v) :: d) q = v := if_pos rfl

theorem lnOf_of_ne {q a : Word64} (h : q ≠ a) (v : Word64) (d : LnDepartures) : lnOf ((a, v) :: d) q = lnOf d q :=
  if_neg h

/-- `ALPHA` is exactly `3248446411222339 / 2^52` (42_estimator.md R122). -/
theorem alpha_fraction : num64 Config.alpha * 2 ^ 52 = 3248446411222339 * den64 Config.alpha := by decide

/-- `SR_FACTOR` is exactly `5 / 2` (00_scope.md R6). -/
theorem srFactor_fraction : num64 Config.srFactor * 2 = 5 * den64 Config.srFactor := by decide

end Sys2Proof.Machine
end

