-- ==== Sys2Proof/Laws/Memory.lean ====
section
/-!
SUPPORT. The register array: a read after a write, and the canonical form that every write keeps.
-/

namespace Sys2Proof.Machine

@[simp] theorem Memory.read_nil (i : Nat) : Memory.read [] i = 0#5 := rfl

@[simp] theorem Memory.read_zeroed (i : Nat) : Memory.zeroed.read i = 0#5 := rfl

theorem Memory.read_cons (a : Nat) (v : Rank) (m : Memory) (i : Nat) :
    Memory.read ((a, v) :: m) i = if a = i then v else Memory.read m i := rfl

/-- An index below every listed one reads as 0. -/
theorem Memory.read_eq_zero_of_lt {low : Nat} {m : Memory} (h : Memory.wfFrom low m = true) {i : Nat} (hi : i < low) :
    m.read i = 0#5 := by
  induction m generalizing low with
  | nil => rfl
  | cons c rest ih =>
    obtain ⟨a, v⟩ := c
    simp only [Memory.wfFrom, Bool.and_eq_true, decide_eq_true_eq] at h
    rw [Memory.read_cons, if_neg (by omega)]
    exact ih h.2 (by omega)

/-- A write leaves every other index alone. -/
theorem Memory.read_write_other (m : Memory) {i j : Nat} (v : Rank) (h : i ≠ j) :
    (m.write i v).read j = m.read j := by
  induction m with
  | nil => by_cases hv : v = 0#5 <;> simp [Memory.write, Memory.read, hv, h]
  | cons c rest ih =>
    obtain ⟨a, x⟩ := c
    simp only [Memory.write]
    split
    · simp only [Memory.read_cons, ih]
    · split
      · subst a
        split <;> simp [Memory.read_cons, h]
      · split <;> simp [Memory.read_cons, h]

/-- A read after a write to the same index gives the value written, in a canonical array. -/
theorem Memory.read_write_same {low : Nat} {m : Memory} (hm : Memory.wfFrom low m = true) (i : Nat) (v : Rank) :
    (m.write i v).read i = v := by
  induction m generalizing low with
  | nil => by_cases hv : v = 0#5 <;> simp [Memory.write, Memory.read, hv]
  | cons c rest ih =>
    obtain ⟨a, x⟩ := c
    simp only [Memory.wfFrom, Bool.and_eq_true, decide_eq_true_eq] at hm
    simp only [Memory.write]
    split
    · next h => rw [Memory.read_cons, if_neg (by omega), ih hm.2]
    · split
      · next h =>
        split
        · next hv => rw [hv]; exact Memory.read_eq_zero_of_lt hm.2 (by omega)
        · simp [Memory.read_cons]
      · next h1 h2 =>
        split
        · next hv =>
          rw [hv, Memory.read_cons, if_neg h2]
          exact Memory.read_eq_zero_of_lt hm.2 (by omega)
        · simp [Memory.read_cons]

/-- The value at every index after a write, in a canonical array. -/
theorem Memory.read_write {m : Memory} (hm : m.wf = true) (i j : Nat) (v : Rank) :
    (m.write i v).read j = if i = j then v else m.read j := by
  by_cases h : i = j
  · subst h; rw [if_pos rfl]; exact Memory.read_write_same hm i v
  · rw [if_neg h]; exact Memory.read_write_other m v h

/-- A write keeps the canonical form. -/
theorem Memory.wfFrom_write {low : Nat} {m : Memory} (hm : Memory.wfFrom low m = true) {i : Nat} (v : Rank)
    (hlow : low ≤ i) (hi : i < Config.mMax) : Memory.wfFrom low (m.write i v) = true := by
  induction m generalizing low with
  | nil => by_cases hv : v = 0#5 <;> simp [Memory.write, Memory.wfFrom, hv, hlow, hi]
  | cons c rest ih =>
    obtain ⟨a, x⟩ := c
    simp only [Memory.wfFrom, Bool.and_eq_true, decide_eq_true_eq] at hm
    obtain ⟨⟨⟨h1, h2⟩, h3⟩, h4⟩ := hm
    have weaken : ∀ {k : Nat} {m' : Memory}, Memory.wfFrom k m' = true → ∀ {k' : Nat}, k' ≤ k →
        Memory.wfFrom k' m' = true := by
      intro k m' hk k' hle
      cases m' with
      | nil => rfl
      | cons c' _ =>
        simp only [Memory.wfFrom, Bool.and_eq_true, decide_eq_true_eq] at hk ⊢
        exact ⟨⟨⟨by omega, hk.1.1.2⟩, hk.1.2⟩, hk.2⟩
    simp only [Memory.write]
    split
    · next h =>
      simp only [Memory.wfFrom, Bool.and_eq_true, decide_eq_true_eq]
      exact ⟨⟨⟨h1, h2⟩, h3⟩, ih h4 (by omega)⟩
    · split
      · next h =>
        split
        · exact weaken h4 (by omega)
        · next hv =>
          subst h
          simp only [Memory.wfFrom, Bool.and_eq_true, decide_eq_true_eq]
          exact ⟨⟨⟨h1, h2⟩, hv⟩, h4⟩
      · next hlt hne =>
        split
        · simp only [Memory.wfFrom, Bool.and_eq_true, decide_eq_true_eq]
          exact ⟨⟨⟨h1, h2⟩, h3⟩, h4⟩
        · next hv =>
          simp only [Memory.wfFrom, Bool.and_eq_true, decide_eq_true_eq]
          exact ⟨⟨⟨hlow, hi⟩, hv⟩, ⟨⟨by omega, h2⟩, h3⟩, h4⟩

/-- A write within the index space keeps the canonical form. -/
theorem Memory.wf_write {m : Memory} (hm : m.wf = true) {i : Nat} (v : Rank) (hi : i < Config.mMax) :
    (m.write i v).wf = true :=
  Memory.wfFrom_write hm v (Nat.zero_le i) hi

/-- The empty array, and so the array that CONFIG and CLEAR leave, is canonical. -/
@[simp] theorem Memory.wf_zeroed : Memory.zeroed.wf = true := rfl

/-- The max-rank write keeps the canonical form. -/
theorem Memory.wf_raise {m : Memory} (hm : m.wf = true) {i : Nat} (r : Nat) (hi : i < Config.mMax) :
    (m.raise i r).wf = true :=
  Memory.wf_write hm _ hi

/-- The value at every index after a max-rank write, in a canonical array (41_update.md R104). -/
theorem Memory.read_raise {m : Memory} (hm : m.wf = true) (i j r : Nat) :
    (m.raise i r).read j = if i = j then maxRank (m.read i) r else m.read j :=
  Memory.read_write hm i j _

/-- The written value as a number, for a rank of 5 bits. -/
theorem maxRank_toNat (old : Rank) {r : Nat} (hr : r < 32) : (maxRank old r).toNat = max old.toNat r := by
  have := old.isLt
  simp only [maxRank, BitVec.toNat_ofNat]
  exact Nat.mod_eq_of_lt (by omega)

end Sys2Proof.Machine
end

