-- ==== Sys2Proof/Laws/State.lean ====
section
/-!
SUPPORT. One lemma a field for each update of the state by a shared operation, so that no later proof unfolds a record update.
-/

namespace Sys2Proof.Machine

/-! ### `respond` (10_state.md R30): writes the response only -/

@[simp] theorem respond_configured (r : Word64) (s : State) : (respond r s).configured = s.configured := rfl
@[simp] theorem respond_prec (r : Word64) (s : State) : (respond r s).prec = s.prec := rfl
@[simp] theorem respond_mode (r : Word64) (s : State) : (respond r s).mode = s.mode := rfl
@[simp] theorem respond_seed (r : Word64) (s : State) : (respond r s).seed = s.seed := rfl
@[simp] theorem respond_acc (r : Word64) (s : State) : (respond r s).acc = s.acc := rfl
@[simp] theorem respond_reg (r : Word64) (s : State) : (respond r s).reg = s.reg := rfl
@[simp] theorem respond_result (r : Word64) (s : State) : (respond r s).result = r := rfl
@[simp] theorem respond_lastStatus (r : Word64) (s : State) : (respond r s).lastStatus = 0#8 := rfl
@[simp] theorem respond_stickyErr (r : Word64) (s : State) : (respond r s).stickyErr = s.stickyErr := rfl
@[simp] theorem respond_packedClear (r : Word64) (s : State) : (respond r s).packedClear = s.packedClear := rfl
@[simp] theorem respond_lnDepartures (r : Word64) (s : State) : (respond r s).lnDepartures = s.lnDepartures := rfl
@[simp] theorem respond_input (r : Word64) (s : State) : (respond r s).input = s.input := rfl

/-! ### `raiseError` (60_exceptions.md R182): writes the response and the sticky bit only -/

@[simp] theorem raiseError_configured (e : ErrorCode) (s : State) : (raiseError e s).configured = s.configured := rfl
@[simp] theorem raiseError_prec (e : ErrorCode) (s : State) : (raiseError e s).prec = s.prec := rfl
@[simp] theorem raiseError_mode (e : ErrorCode) (s : State) : (raiseError e s).mode = s.mode := rfl
@[simp] theorem raiseError_seed (e : ErrorCode) (s : State) : (raiseError e s).seed = s.seed := rfl
@[simp] theorem raiseError_acc (e : ErrorCode) (s : State) : (raiseError e s).acc = s.acc := rfl
@[simp] theorem raiseError_reg (e : ErrorCode) (s : State) : (raiseError e s).reg = s.reg := rfl
@[simp] theorem raiseError_result (e : ErrorCode) (s : State) : (raiseError e s).result = 0#64 := rfl
@[simp] theorem raiseError_lastStatus (e : ErrorCode) (s : State) : (raiseError e s).lastStatus = e.code := rfl
@[simp] theorem raiseError_stickyErr (e : ErrorCode) (s : State) : (raiseError e s).stickyErr = true := rfl
@[simp] theorem raiseError_packedClear (e : ErrorCode) (s : State) : (raiseError e s).packedClear = s.packedClear := rfl
@[simp] theorem raiseError_lnDepartures (e : ErrorCode) (s : State) : (raiseError e s).lnDepartures = s.lnDepartures := rfl
@[simp] theorem raiseError_input (e : ErrorCode) (s : State) : (raiseError e s).input = s.input := rfl

/-! ### `giveCommand`: only the host's stream -/

@[simp] theorem giveCommand_configured (w : Word64) (s : State) : (giveCommand w s).configured = s.configured := rfl
@[simp] theorem giveCommand_prec (w : Word64) (s : State) : (giveCommand w s).prec = s.prec := rfl
@[simp] theorem giveCommand_mode (w : Word64) (s : State) : (giveCommand w s).mode = s.mode := rfl
@[simp] theorem giveCommand_seed (w : Word64) (s : State) : (giveCommand w s).seed = s.seed := rfl
@[simp] theorem giveCommand_acc (w : Word64) (s : State) : (giveCommand w s).acc = s.acc := rfl
@[simp] theorem giveCommand_reg (w : Word64) (s : State) : (giveCommand w s).reg = s.reg := rfl
@[simp] theorem giveCommand_result (w : Word64) (s : State) : (giveCommand w s).result = s.result := rfl
@[simp] theorem giveCommand_lastStatus (w : Word64) (s : State) : (giveCommand w s).lastStatus = s.lastStatus := rfl
@[simp] theorem giveCommand_stickyErr (w : Word64) (s : State) : (giveCommand w s).stickyErr = s.stickyErr := rfl
@[simp] theorem giveCommand_packedClear (w : Word64) (s : State) : (giveCommand w s).packedClear = s.packedClear := rfl
@[simp] theorem giveCommand_lnDepartures (w : Word64) (s : State) : (giveCommand w s).lnDepartures = s.lnDepartures := rfl
@[simp] theorem giveCommand_input (w : Word64) (s : State) : (giveCommand w s).input = .command w :: s.input := rfl

/-! ### `hardwareReset` (70_reset_and_hazards.md R200) -/

@[simp] theorem hardwareReset_configured (s : State) : (hardwareReset s).configured = false := rfl
@[simp] theorem hardwareReset_prec (s : State) : (hardwareReset s).prec = 0#5 := rfl
@[simp] theorem hardwareReset_mode (s : State) : (hardwareReset s).mode = .standard := rfl
@[simp] theorem hardwareReset_seed (s : State) : (hardwareReset s).seed = 0#32 := rfl
@[simp] theorem hardwareReset_acc (s : State) : (hardwareReset s).acc = 0#32 := rfl
@[simp] theorem hardwareReset_reg (s : State) : (hardwareReset s).reg = [] := rfl
@[simp] theorem hardwareReset_result (s : State) : (hardwareReset s).result = 0#64 := rfl
@[simp] theorem hardwareReset_lastStatus (s : State) : (hardwareReset s).lastStatus = 0#8 := rfl
@[simp] theorem hardwareReset_stickyErr (s : State) : (hardwareReset s).stickyErr = false := rfl
@[simp] theorem hardwareReset_packedClear (s : State) : (hardwareReset s).packedClear = s.packedClear := rfl
@[simp] theorem hardwareReset_lnDepartures (s : State) : (hardwareReset s).lnDepartures = s.lnDepartures := rfl
@[simp] theorem hardwareReset_input (s : State) : (hardwareReset s).input = s.input := rfl

/-! ### `rejectWord` (30_encoding.md R64) -/

@[simp] theorem rejectWord_configured (e : DecodeError) (s : State) : (rejectWord e s).configured = s.configured := rfl
@[simp] theorem rejectWord_prec (e : DecodeError) (s : State) : (rejectWord e s).prec = s.prec := rfl
@[simp] theorem rejectWord_mode (e : DecodeError) (s : State) : (rejectWord e s).mode = s.mode := rfl
@[simp] theorem rejectWord_seed (e : DecodeError) (s : State) : (rejectWord e s).seed = s.seed := rfl
@[simp] theorem rejectWord_acc (e : DecodeError) (s : State) : (rejectWord e s).acc = s.acc := rfl
@[simp] theorem rejectWord_reg (e : DecodeError) (s : State) : (rejectWord e s).reg = s.reg := rfl
@[simp] theorem rejectWord_result (e : DecodeError) (s : State) : (rejectWord e s).result = 0#64 := rfl
@[simp] theorem rejectWord_lastStatus (e : DecodeError) (s : State) : (rejectWord e s).lastStatus = (DecodeError.errorCode e).code := rfl
@[simp] theorem rejectWord_stickyErr (e : DecodeError) (s : State) : (rejectWord e s).stickyErr = true := rfl
@[simp] theorem rejectWord_packedClear (e : DecodeError) (s : State) : (rejectWord e s).packedClear = s.packedClear := rfl
@[simp] theorem rejectWord_lnDepartures (e : DecodeError) (s : State) : (rejectWord e s).lnDepartures = s.lnDepartures := rfl
@[simp] theorem rejectWord_input (e : DecodeError) (s : State) : (rejectWord e s).input = s.input := rfl

@[simp] theorem waitForHost_eq (s : State) : waitForHost s = s := rfl

/-! ### The codes of 60_exceptions.md R180 -/

@[simp] theorem code_illegalOpcode : ErrorCode.illegalOpcode.code = 1#8 := rfl
@[simp] theorem code_reservedBits : ErrorCode.reservedBits.code = 2#8 := rfl
@[simp] theorem code_notConfigured : ErrorCode.notConfigured.code = 3#8 := rfl
@[simp] theorem code_invalidPrecision : ErrorCode.invalidPrecision.code = 4#8 := rfl
@[simp] theorem code_unsupported : ErrorCode.unsupported.code = 5#8 := rfl
@[simp] theorem code_indexRange : ErrorCode.indexRange.code = 6#8 := rfl

/-- No error has status `OK`. -/
theorem code_ne_ok (e : ErrorCode) : e.code ≠ 0#8 := by cases e <;> decide

/-- Errors have the codes 1 to 6. -/
theorem code_le_six (e : ErrorCode) : e.code.toNat ≤ 6 := by cases e <;> decide

end Sys2Proof.Machine
end

