-- ==== Sys2Proof/Laws/Ops.lean ====
section
/-!
SUPPORT. What each shared operation can do, said once: the first check of eight commands, the ways a step can end, and the
predicates of `Safety.lean` on the two ways a command ends.
-/

namespace Sys2Proof.Machine

/-! ### The first check -/

@[simp] theorem whenConfigured_true {s : State} (h : s.configured = true) (k : Result) : whenConfigured s k = k :=
  if_pos h

@[simp] theorem whenConfigured_false {s : State} (h : s.configured = false) (k : Result) :
    whenConfigured s k = .next (raiseError .notConfigured s) := by
  simp [whenConfigured, h]

/-- A checked command either is turned away unconfigured or is what stands after the check. -/
theorem whenConfigured_cases {s : State} {k : Result} {t : State} (h : whenConfigured s k = .next t) :
    (s.configured = false ∧ t = raiseError .notConfigured s) ∨ (s.configured = true ∧ k = .next t) := by
  cases hc : s.configured with
  | false => rw [whenConfigured_false hc] at h; cases h; exact .inl ⟨rfl, rfl⟩
  | true => rw [whenConfigured_true hc] at h; exact .inr ⟨rfl, h⟩

/-! ### What the two ways a command ends leave unchanged -/

theorem SketchKept.refl (s : State) : SketchKept s s :=
  ⟨⟨rfl, rfl, rfl, rfl⟩, rfl, fun _ => rfl, rfl, rfl, rfl⟩

theorem respond_sketchKept (r : Word64) (s : State) : SketchKept s (respond r s) :=
  ⟨⟨rfl, rfl, rfl, rfl⟩, rfl, fun _ => rfl, rfl, rfl, rfl⟩

theorem raiseError_sketchKept (e : ErrorCode) (s : State) : SketchKept s (raiseError e s) :=
  ⟨⟨rfl, rfl, rfl, rfl⟩, rfl, fun _ => rfl, rfl, rfl, rfl⟩

theorem respond_endsOk (r : Word64) (s : State) : EndsOk s (respond r s) r := ⟨rfl, rfl, rfl⟩

theorem raiseError_endsInError (e : ErrorCode) (s : State) : EndsInError (raiseError e s) e.code := ⟨rfl, rfl, rfl⟩

/-! ### Reading a register architecturally -/

theorem State.reg?_of_configured {s : State} (h : s.configured = true) {i : Nat} (hi : i < 65536) :
    s.reg? i = some (s.reg.read i) :=
  if_pos ⟨h, hi⟩

theorem State.reg?_of_unconfigured {s : State} (h : s.configured = false) (i : Nat) : s.reg? i = none := by
  simp [State.reg?, h]

/-! ### One step -/

theorem runWord_of_ok {w : Word64} {i : Instr} (h : decode w = .ok i) (s : State) : runWord w s = exec i s := by
  simp [runWord, h]

theorem runWord_of_error {w : Word64} {e : DecodeError} (h : decode w = .error e) (s : State) :
    runWord w s = .next (rejectWord e s) := by
  simp [runWord, h]

theorem takeInput_nil {s : State} (h : s.input = []) : takeInput s = none := by simp [takeInput, h]

theorem takeInput_cons {s : State} {e : HostEvent} {rest : List HostEvent} (h : s.input = e :: rest) :
    takeInput s = some (e, { s with input := rest }) := by simp [takeInput, h]

/-- The four ways a step answers, each with the state it acts on. -/
theorem step_eq (s : State) :
    (s.input = [] ∧ step s = .next s) ∨
    (∃ rest, s.input = .reset :: rest ∧ step s = .next (hardwareReset { s with input := rest })) ∨
    (∃ w rest i, s.input = .command w :: rest ∧ decode w = .ok i ∧ step s = exec i { s with input := rest }) ∨
    (∃ w rest e, s.input = .command w :: rest ∧ decode w = .error e ∧
      step s = .next (rejectWord e { s with input := rest })) := by
  cases h : s.input with
  | nil => exact .inl ⟨rfl, by simp [step, takeInput_nil h]⟩
  | cons e rest =>
    cases e with
    | reset => exact .inr (.inl ⟨rest, rfl, by simp [step, takeInput_cons h]⟩)
    | command w =>
      cases hd : decode w with
      | ok i => exact .inr (.inr (.inl ⟨w, rest, i, rfl, hd, by simp [step, takeInput_cons h, runWord, hd]⟩))
      | error e => exact .inr (.inr (.inr ⟨w, rest, e, rfl, hd, by simp [step, takeInput_cons h, runWord, hd]⟩))

end Sys2Proof.Machine
end

