-- ==== Sys2Proof/Laws/Update.lean ====
section
/-!
SUPPORT. The register update touches `REG` alone (41_update.md R103), and equal registers are equal arrays.
-/

namespace Sys2Proof.Machine

@[simp] theorem update_configured (h : Word32) (s : State) : (update h s).configured = s.configured := rfl
@[simp] theorem update_prec (h : Word32) (s : State) : (update h s).prec = s.prec := rfl
@[simp] theorem update_mode (h : Word32) (s : State) : (update h s).mode = s.mode := rfl
@[simp] theorem update_seed (h : Word32) (s : State) : (update h s).seed = s.seed := rfl
@[simp] theorem update_acc (h : Word32) (s : State) : (update h s).acc = s.acc := rfl
@[simp] theorem update_result (h : Word32) (s : State) : (update h s).result = s.result := rfl
@[simp] theorem update_lastStatus (h : Word32) (s : State) : (update h s).lastStatus = s.lastStatus := rfl
@[simp] theorem update_stickyErr (h : Word32) (s : State) : (update h s).stickyErr = s.stickyErr := rfl
@[simp] theorem update_packedClear (h : Word32) (s : State) : (update h s).packedClear = s.packedClear := rfl
@[simp] theorem update_input (h : Word32) (s : State) : (update h s).input = s.input := rfl
@[simp] theorem update_reg (h : Word32) (s : State) :
    (update h s).reg = s.reg.raise (index h s.prec.toNat) (storedRank s.mode (rank h s.prec.toNat)) := rfl

/-- The head of a canonical array: its index is the least one that does not read as 0. -/
theorem Memory.read_head {a : Nat} {v : Rank} {m : Memory} {low : Nat}
    (h : Memory.wfFrom low ((a, v) :: m) = true) : Memory.read ((a, v) :: m) a ≠ 0#5 := by
  simp only [Memory.wfFrom, Bool.and_eq_true, decide_eq_true_eq] at h
  simpa [Memory.read_cons] using h.1.2

/-- Canonical arrays that read alike at every index are the same data. -/
theorem Memory.eq_of_read_eq {low : Nat} {m m' : Memory} (hm : Memory.wfFrom low m = true)
    (hm' : Memory.wfFrom low m' = true) (h : ∀ i, m.read i = m'.read i) : m = m' := by
  induction m generalizing m' low with
  | nil =>
    cases m' with
    | nil => rfl
    | cons c rest => exact absurd (h c.1).symm (Memory.read_head hm')
  | cons c rest ih =>
    cases m' with
    | nil => exact absurd (h c.1) (Memory.read_head hm)
    | cons c' rest' =>
      obtain ⟨a, v⟩ := c
      obtain ⟨a', v'⟩ := c'
      have hh := Memory.read_head hm
      have hh' := Memory.read_head hm'
      simp only [Memory.wfFrom, Bool.and_eq_true, decide_eq_true_eq] at hm hm'
      have haa : a = a' := by
        rcases Nat.lt_trichotomy a a' with hlt | heq | hlt
        · rw [h a, Memory.read_cons, if_neg (by omega)] at hh
          exact absurd (Memory.read_eq_zero_of_lt hm'.2 (by omega)) hh
        · exact heq
        · rw [← h a', Memory.read_cons, if_neg (by omega)] at hh'
          exact absurd (Memory.read_eq_zero_of_lt hm.2 (by omega)) hh'
      subst haa
      have hv : v = v' := by simpa [Memory.read_cons] using h a
      subst hv
      have hrest : rest = rest' := by
        refine ih hm.2 hm'.2 (fun i => ?_)
        by_cases hi : a = i
        · subst hi
          rw [Memory.read_eq_zero_of_lt hm.2 (by omega), Memory.read_eq_zero_of_lt hm'.2 (by omega)]
        · simpa [Memory.read_cons, hi] using h i
      rw [hrest]

end Sys2Proof.Machine
end

