-- ==== Sys2Proof/Laws/Exec.lean ====
section
/-!
SUPPORT. What a command can do, said once: it ends in an error and `raiseError` is all of its effect, or it is accepted and ends
with its own effect and result.
-/

namespace Sys2Proof.Machine

/-- When a command is accepted (60_exceptions.md R180, R181). -/
def Accepts (i : Instr) (s : State) : Prop :=
  (needsConfigured i = true → s.configured = true) ∧
  match i with
  | .config p _ _ => 4 ≤ p.toNat ∧ p.toNat ≤ 16
  | .clear => ¬ (s.mode = .packed ∧ s.packedClear = .refuse)
  | .memUsage => s.mode = .packed
  | .readReg k => k.toNat < 2 ^ s.prec.toNat
  | .nop => True
  | .addHash _ => True
  | .hashByte _ => True
  | .hashReset => True
  | .addElem => True
  | .estimate => True
  | .status => True

/-- The effect of an accepted command on everything but the response. -/
def effect (i : Instr) (s : State) : State :=
  match i with
  | .config p mode seed =>
    { s with
      configured := true
      prec := p.setWidth 5
      mode := mode
      seed := seed
      acc := 0#32
      reg := Memory.zeroed }
  | .clear => { s with reg := Memory.zeroed }
  | .addHash h => update h s
  | .hashByte c => { s with acc := hashStep s.acc c }
  | .hashReset => { s with acc := 0#32 }
  | .addElem => { update s.acc s with acc := 0#32 }
  | .nop => s
  | .estimate => s
  | .memUsage => s
  | .readReg _ => s
  | .status => s

/-- The result word of an accepted command (10_state.md R30). -/
def resultOf (i : Instr) (s : State) : Word64 :=
  match i with
  | .estimate => estimateWith (lnOf s.lnDepartures) s.reg s.prec.toNat
  | .memUsage => BitVec.ofNat 64 (packedBytes s.prec.toNat)
  | .readReg k => (s.reg.read k.toNat).setWidth 64
  | .status => statusWord s
  | .nop => 0#64
  | .config _ _ _ => 0#64
  | .clear => 0#64
  | .addHash _ => 0#64
  | .hashByte _ => 0#64
  | .hashReset => 0#64
  | .addElem => 0#64

/-- A precision is accepted exactly in 4 to 16 (44_control.md R161). -/
theorem precisionOk_iff (p : BitVec 6) : precisionOk p = true ↔ 4 ≤ p.toNat ∧ p.toNat ≤ 16 := by
  rw [precisionOk, Bool.and_eq_true, decide_eq_true_iff, decide_eq_true_iff]
  rfl

/-- An accepted command ends with its own effect and result. -/
theorem exec_of_accepts {i : Instr} {s : State} (h : Accepts i s) :
    exec i s = .next (respond (resultOf i s) (effect i s)) := by
  obtain ⟨hc, hx⟩ := h
  cases i with
  | nop => rfl
  | status => rfl
  | config p mode seed => exact if_pos ((precisionOk_iff p).2 hx)
  | clear => exact (whenConfigured_true (hc rfl) _).trans (if_neg hx)
  | addHash h => exact whenConfigured_true (hc rfl) _
  | hashByte c => exact whenConfigured_true (hc rfl) _
  | hashReset => exact whenConfigured_true (hc rfl) _
  | addElem => exact whenConfigured_true (hc rfl) _
  | estimate => exact whenConfigured_true (hc rfl) _
  | memUsage => exact (whenConfigured_true (hc rfl) _).trans (if_neg (by simp [show s.mode = .packed from hx]))
  | readReg k => exact (whenConfigured_true (hc rfl) _).trans (if_neg (Nat.not_le.2 hx))

/-- A command that is not accepted ends in an error, with no other effect. -/
theorem exec_of_not_accepts {i : Instr} {s : State} (h : ¬ Accepts i s) : ∃ e, exec i s = .next (raiseError e s) := by
  by_cases hc : needsConfigured i = true → s.configured = true
  · cases i with
    | nop => exact absurd ⟨hc, trivial⟩ h
    | status => exact absurd ⟨hc, trivial⟩ h
    | config p mode seed => exact ⟨_, if_neg (fun hp => h ⟨hc, (precisionOk_iff p).1 hp⟩)⟩
    | clear =>
      exact ⟨_, (whenConfigured_true (hc rfl) _).trans (if_pos (Decidable.not_not.1 fun hp => h ⟨hc, hp⟩))⟩
    | addHash h' => exact absurd ⟨hc, trivial⟩ h
    | hashByte c => exact absurd ⟨hc, trivial⟩ h
    | hashReset => exact absurd ⟨hc, trivial⟩ h
    | addElem => exact absurd ⟨hc, trivial⟩ h
    | estimate => exact absurd ⟨hc, trivial⟩ h
    | memUsage =>
      refine ⟨_, (whenConfigured_true (hc rfl) _).trans (if_pos ?_)⟩
      cases hm : s.mode with
      | standard => rfl
      | packed => exact absurd ⟨hc, hm⟩ h
    | readReg k =>
      exact ⟨_, (whenConfigured_true (hc rfl) _).trans (if_pos (Nat.not_lt.1 fun hk => h ⟨hc, hk⟩))⟩
  · have hn : needsConfigured i = true := by
      by_contra hn
      exact hc fun hp => absurd hp hn
    have hs : s.configured = false := by
      cases hb : s.configured with
      | false => rfl
      | true => exact absurd (fun _ => hb) hc
    refine ⟨.notConfigured, ?_⟩
    cases i <;> first | exact whenConfigured_false hs _ | exact absurd hn Bool.false_ne_true

/-- What a command can do: end in an error with no other effect, or be accepted and have its own. -/
theorem exec_cases {i : Instr} {s t : State} (h : exec i s = .next t) :
    (∃ e, t = raiseError e s) ∨ (Accepts i s ∧ t = respond (resultOf i s) (effect i s)) := by
  by_cases ha : Accepts i s
  · rw [exec_of_accepts ha] at h
    injection h with h
    exact .inr ⟨ha, h.symm⟩
  · obtain ⟨e, he⟩ := exec_of_not_accepts ha
    rw [he] at h
    injection h with h
    exact .inl ⟨e, h.symm⟩

/-- The model's own fields pass through every effect. -/
theorem effect_sameHost (i : Instr) (s : State) : SameHost s (effect i s) := by
  cases i <;> exact ⟨rfl, rfl, rfl⟩

/-- No effect writes the response or the sticky bit. -/
theorem effect_stickyErr (i : Instr) (s : State) : (effect i s).stickyErr = s.stickyErr := by
  cases i <;> rfl

/-! ### Sequences of commands that do not begin the registers anew -/

/-- The registers after `Update` by each hash in turn (41_update.md R103). -/
def raiseAll (mode : Mode) (B : Nat) (reg : Memory) (hs : List Word32) : Memory :=
  hs.foldl (fun r h => r.raise (index h B) (storedRank mode (rank h B))) reg

/-- What a command other than CLEAR and CONFIG does to a configured block, the response apart. -/
theorem exec_of_not_restarts {i : Instr} (hr : restarts i = false) {s : State} (hc : s.configured = true) :
    ∃ t, exec i s = .next t ∧ SameConfig s t ∧ SameHost s t ∧ t.acc = nextAcc s.acc i ∧
      t.reg = raiseAll s.mode s.prec.toNat s.reg (appliedHash s.acc i).toList := by
  by_cases ha : Accepts i s
  · refine ⟨_, exec_of_accepts ha, ?_⟩
    cases i <;> first
      | exact Bool.noConfusion hr
      | exact ⟨⟨rfl, rfl, rfl, rfl⟩, ⟨rfl, rfl, rfl⟩, rfl, rfl⟩
  · obtain ⟨e, he⟩ := exec_of_not_accepts ha
    refine ⟨_, he, ⟨rfl, rfl, rfl, rfl⟩, ⟨rfl, rfl, rfl⟩, ?_⟩
    cases i <;> first
      | exact Bool.noConfusion hr
      | exact ⟨rfl, rfl⟩
      | exact absurd ⟨fun _ => hc, trivial⟩ ha

/-- What a sequence of such commands does: it updates the sketch by the hashes applied (41_update.md R107). -/
theorem execAll_of_not_restarts (cs : List Instr) {s : State} (hc : s.configured = true)
    (hr : ∀ c ∈ cs, restarts c = false) :
    ∃ t, execAll cs s = .next t ∧ SameConfig s t ∧ SameHost s t ∧
      t.reg = raiseAll s.mode s.prec.toNat s.reg (appliedHashes s.acc cs) := by
  induction cs generalizing s with
  | nil => exact ⟨s, rfl, ⟨rfl, rfl, rfl, rfl⟩, ⟨rfl, rfl, rfl⟩, rfl⟩
  | cons i rest ih =>
    obtain ⟨u, hu, ⟨uc, up, um, us⟩, ⟨ud, ul, ui⟩, ua, ur⟩ := exec_of_not_restarts (hr i (by simp)) hc
    obtain ⟨t, ht, ⟨tc, tp, tm, ts⟩, ⟨td, tl, ti⟩, tr⟩ := ih (uc.trans hc) fun c h => hr c (by simp [h])
    refine ⟨t, by simp [execAll, hu, ht], ⟨tc.trans uc, tp.trans up, tm.trans um, ts.trans us⟩,
      ⟨td.trans ud, tl.trans ul, ti.trans ui⟩, ?_⟩
    rw [tr, up, um, ua, ur, appliedHashes]
    exact List.foldl_append.symm

end Sys2Proof.Machine
end

