-- ==== Sys2Proof/Laws/PerInstr.lean ====
section
/-!
SUPPORT. The family `OpcodeOfWord`: the word of each command carries the opcode of its row (30_encoding.md R63) in its low byte.
-/

namespace Sys2Proof.Laws.OpcodeOfWord

/-- The opcode of a command (30_encoding.md R63). -/
def opcode : Instr → Byte
  | .nop => 0x00#8
  | .config _ _ _ => 0x01#8
  | .clear => 0x02#8
  | .addHash _ => 0x03#8
  | .hashByte _ => 0x04#8
  | .hashReset => 0x05#8
  | .addElem => 0x06#8
  | .estimate => 0x07#8
  | .memUsage => 0x08#8
  | .readReg _ => 0x09#8
  | .status => 0x0A#8

/-- The encoded word's low byte is the command's opcode. -/
def Statement (i : Instr) : Prop := opc (encode i) = opcode i

/-- The low byte of a word put together from a high part and a low byte. -/
theorem opc_append (x : BitVec 56) (b : Byte) : opc (x ++ b) = b := by
  apply BitVec.eq_of_getElem_eq
  intro i hi
  simp only [opc, bits, BitVec.extractLsb, BitVec.getElem_extractLsb', Nat.zero_add]
  exact (BitVec.getLsbD_append (x := x) (y := b)).trans (by rw [if_pos hi, BitVec.getLsbD_eq_getElem hi])

theorem nop : Statement .nop := rfl
theorem config (p : BitVec 6) (mode : Mode) (seed : Word32) : Statement (.config p mode seed) := opc_append _ _
theorem clear : Statement .clear := rfl
theorem addHash (h : Word32) : Statement (.addHash h) := opc_append _ _
theorem hashByte (c : Byte) : Statement (.hashByte c) := opc_append _ _
theorem hashReset : Statement .hashReset := rfl
theorem addElem : Statement .addElem := rfl
theorem estimate : Statement .estimate := rfl
theorem memUsage : Statement .memUsage := rfl
theorem readReg (i : BitVec 16) : Statement (.readReg i) := opc_append _ _
theorem status : Statement .status := rfl

end Sys2Proof.Laws.OpcodeOfWord
end

