-- ==== Sys2Proof/Tests/Slice0.lean ====
section
/-!
SUPPORT. The model's own tests and the witnesses of the statements' hypotheses. Expected values are those of
`spec/95_test_vectors.md` (its row is named in each comment), of the worked examples of the rules, or of a word written out
from 30_encoding.md R63 and R67.
-/

namespace Sys2Proof.Tests

open Sys2Proof Sys2Proof.Machine

/-! ### The assembler's check refuses each ill-formed line (R67) -/

theorem test_wf_refuses_wide_precision : (Asm.config 64 .standard 0).wellFormed = false := by decide
theorem test_wf_refuses_wide_seed : (Asm.config 4 .standard (2 ^ 32)).wellFormed = false := by decide
theorem test_wf_refuses_wide_hash : (Asm.addHash (2 ^ 32)).wellFormed = false := by decide
theorem test_wf_refuses_wide_byte : (Asm.hashByte 256).wellFormed = false := by decide
theorem test_wf_refuses_wide_index : (Asm.readReg 65536).wellFormed = false := by decide
/-- Not R67's: the choice of notes/assumptions/12.md. -/
theorem test_wf_refuses_unprintable : (Asm.add [0x68, 0x07]).wellFormed = false := by decide
theorem test_wf_refuses_wide_new : (Asm.new 64 .packed).wellFormed = false := by decide
/-- "it does not refuse a `p` that fits 6 bits but is outside 4 to 16" (R67). -/
theorem test_wf_accepts_invalid_precision : (Asm.config 33 .standard 0).wellFormed = true := by decide

/-! ### Decoding: words written out field by field, most significant bits first (R60, R63) -/

/-- NOP: every bit 0 (X12). -/
theorem test_decode_nop : decode (0#32 ++ 0#8 ++ 0#16 ++ 0b00000000#8) = .ok .nop := by decide
/-- CONFIG 8, PACKED, 0xDEADBEEF (X21): DATA, RSV, IMM 23:17, MODE1, 15:14, PREC6, OPC. -/
theorem test_decode_config :
    decode (0xDEADBEEF#32 ++ 0#8 ++ 0#7 ++ 0b1#1 ++ 0b00#2 ++ 0b001000#6 ++ 0b00000001#8)
      = .ok (.config 8#6 .packed 0xDEADBEEF#32) := by decide
/-- CONFIG 63 (X20): the largest precision the field holds decodes. -/
theorem test_decode_config_63 : decode 0x0000000000003F01#64 = .ok (.config 63#6 .standard 0#32) := by decide
theorem test_decode_clear : decode (0#56 ++ 0b00000010#8) = .ok .clear := by decide
/-- ADD_HASH 0xFF80C0B4 (P2). -/
theorem test_decode_addHash :
    decode (0b11111111100000001100000010110100#32 ++ 0#24 ++ 0b00000011#8) = .ok (.addHash 0xFF80C0B4#32) := by decide
/-- HASH_BYTE 'h' (P3). -/
theorem test_decode_hashByte : decode (0#48 ++ 0b01101000#8 ++ 0b00000100#8) = .ok (.hashByte 0x68#8) := by decide
theorem test_decode_hashReset : decode (0#56 ++ 0b00000101#8) = .ok .hashReset := by decide
theorem test_decode_addElem : decode (0#56 ++ 0b00000110#8) = .ok .addElem := by decide
theorem test_decode_estimate : decode (0#56 ++ 0b00000111#8) = .ok .estimate := by decide
theorem test_decode_memUsage : decode (0#56 ++ 0b00001000#8) = .ok .memUsage := by decide
/-- READ_REG 65535 (S8). -/
theorem test_decode_readReg :
    decode (0#32 ++ 0#8 ++ 0b1111111111111111#16 ++ 0b00001001#8) = .ok (.readReg 65535#16) := by decide
theorem test_decode_status : decode (0#56 ++ 0b00001010#8) = .ok .status := by decide
/-- X2: the first illegal opcode. -/
theorem test_decode_first_illegal : decode 0x000000000000000B#64 = .error .illegalOpcode := by decide
/-- X3: `ILLEGAL_OPCODE` beats `RESERVED_BITS`. -/
theorem test_decode_illegal_beats_reserved : decode 0xFFFFFFFFFFFFFF0B#64 = .error .illegalOpcode := by decide
/-- X4 to X9: a must-be-zero bit of each family. -/
theorem test_decode_reserved :
    decode 0x0000000001000000#64 = .error .reservedBits ∧ decode 0x000000000001FF04#64 = .error .reservedBits ∧
    decode 0x0000000001000401#64 = .error .reservedBits ∧ decode 0x0000000000004401#64 = .error .reservedBits ∧
    decode 0x0000000000000103#64 = .error .reservedBits ∧ decode 0x0000000001000009#64 = .error .reservedBits := by
  decide
theorem test_decodeTableWord : decodeTableWord 64 0x281A415B00000003 = some (.addHash 0x281A415B#32) := by decide

/-! ### A small machine -/

/-- A Standard sketch at precision 4 with registers 2 and 15 raised and part of "hello" fed (R82's example). -/
def std4 : State :=
  { State.reset with
    configured := true, prec := 4#5, seed := 7#32, acc := 0x0030CF3D#32, reg := [(2, 1#5), (15, 28#5)] }

/-- A Packed sketch at precision 16, its last register raised. -/
def packed16 : State :=
  { State.reset with configured := true, prec := 16#5, mode := .packed, reg := [(65535, 16#5)] }

/-- The same in an implementation with `PACKED_CLEAR = Support`. -/
def packed16Clearable : State := { packed16 with packedClear := .support }

/-- What the host reads after one command word. -/
def responseTo (w : Nat) (s : State) : Option (BitVec 8 × Word64) :=
  match step (s.withFetchWord 64 w) with
  | .next t => some t.response
  | _ => none

/-- One register after one command word. -/
def regAfter (w : Nat) (s : State) (i : Nat) : Option Rank :=
  match step (s.withFetchWord 64 w) with
  | .next t => t.reg? i
  | _ => none

/-- The accumulator after one command word. -/
def accAfter (w : Nat) (s : State) : Option Word32 :=
  match step (s.withFetchWord 64 w) with
  | .next t => some t.acc
  | _ => none

/-! ### One step each -/

theorem test_nop : responseTo 0x0000000000000000 State.reset = some (0#8, 0#64) := by decide
/-- X16 and X17: the lowest and the highest precision; X15 and X18: just outside. -/
theorem test_config_range :
    responseTo 0x0000000000000401 State.reset = some (0#8, 0#64) ∧
    responseTo 0x0000000000001001 State.reset = some (0#8, 0#64) ∧
    responseTo 0x0000000000000301 State.reset = some (4#8, 0#64) ∧
    responseTo 0x0000000000001101 State.reset = some (4#8, 0#64) := by decide
/-- CONFIG on a configured block ends the old sketch (R162). -/
theorem test_config_zeroes : regAfter 0x0000000000000401 std4 15 = some 0#5 := by decide
/-- S1; and `ACC` survives CLEAR (R142). -/
theorem test_clear : regAfter 0x0000000000000002 std4 15 = some 0#5 ∧
    accAfter 0x0000000000000002 std4 = some 0x0030CF3D#32 := by decide
/-- S2, and P3's note on `PACKED_CLEAR = Support`. -/
theorem test_clear_packed : responseTo 0x0000000000000002 packed16 = some (5#8, 0#64) ∧
    responseTo 0x0000000000000002 packed16Clearable = some (0#8, 0#64) := by decide
/-- U8 at precision 4: a lower rank does not lower register 15; U23: `0x12345678` raises register 1 to 3. -/
theorem test_addHash : regAfter 0xFFFFFFFF00000003 std4 15 = some 28#5 ∧
    regAfter 0x1234567800000003 std4 1 = some 3#5 := by decide
/-- U17, U21 at precision 16: a zero remainder has rank 16. -/
theorem test_addHash_16 : regAfter 0x0000000000000003 packed16 0 = some 16#5 := by decide
/-- R82's example. -/
theorem test_hashByte : accAfter 0x0000000000006F04 std4 = some 0x05E918D2#32 := by decide
/-- H11: a byte at or above 0x80 is unsigned; H12's second step. -/
theorem test_hashByte_unsigned : hashStep 0#32 0xFF#8 = 0x000000FF#32 ∧ hashStep 0x80#32 0x01#8 = 0x00000F81#32 := by
  decide
/-- R83. -/
theorem test_hashReset : accAfter 0x0000000000000005 std4 = some 0#32 := by decide
/-- R106: the element whose hash is `0x0030CF3D` has index 0 and rank 7 (its first one bit is bit 21) at precision 4. -/
theorem test_addElem : regAfter 0x0000000000000006 std4 0 = some 7#5 ∧
    accAfter 0x0000000000000006 std4 = some 0#32 := by decide
/-- E3: the registers of the source's small-range test. -/
theorem test_estimate_small_range :
    responseTo 0x0000000000000007 { std4 with reg := [(2, 1#5), (11, 1#5), (15, 1#5)] }
      = some (0#8, 0x400A93ED3C8AD9E5#64) := by decide +kernel
/-- E9: just above the threshold, the raw branch although a register is 0. -/
theorem test_estimate_raw :
    responseTo 0x0000000000000007
      { std4 with
        reg := [(1, 1#5), (2, 1#5), (3, 1#5), (4, 1#5), (5, 1#5), (6, 1#5), (7, 1#5), (8, 5#5), (9, 5#5), (10, 7#5),
          (11, 7#5), (12, 7#5), (13, 7#5), (14, 7#5), (15, 7#5)] }
      = some (0#8, 0x404407B6E09BA478#64) := by decide +kernel
/-- R6, R127: an implementation whose `LN64(16/13)` is one unit in the last place higher answers E3's sketch with its own
logarithm, exactly scaled by 16. -/
theorem test_estimate_other_logarithm :
    responseTo 0x0000000000000007
      { std4 with
        reg := [(2, 1#5), (11, 1#5), (15, 1#5)], lnDepartures := [(0x3FF3B13B13B13B14#64, 0x3FCA93ED3C8AD9E6#64)] }
      = some (0#8, 0x400A93ED3C8AD9E6#64) := by decide +kernel
/-- The MEM_USAGE table's last column, and S4. -/
theorem test_memUsage : responseTo 0x0000000000000008 packed16 = some (0#8, 40960#64) ∧
    responseTo 0x0000000000000008 std4 = some (5#8, 0#64) := by decide
/-- R143's corners: the last legal index and the first illegal one. -/
theorem test_readReg : responseTo 0x0000000000000F09 std4 = some (0#8, 28#64) ∧
    responseTo 0x0000000000001009 std4 = some (6#8, 0#64) := by decide
/-- STATUS word of R163 for a Packed sketch at precision 16; X13 after reset. -/
theorem test_status : responseTo 0x000000000000000A packed16 = some (0#8, 0x0000000000001003#64) ∧
    responseTo 0x000000000000000A State.reset = some (0#8, 0#64) := by decide
/-- X10, X11 and S9: unconfigured. -/
theorem test_unconfigured : responseTo 0x0000000100000003 State.reset = some (3#8, 0#64) ∧
    responseTo 0x0000000000000007 State.reset = some (3#8, 0#64) ∧
    responseTo 0x0000000000000009 State.reset = some (3#8, 0#64) := by decide
/-- X9: `RESERVED_BITS` beats `NOT_CONFIGURED`. -/
theorem test_priority : responseTo 0x0000000001000009 State.reset = some (2#8, 0#64) := by decide

/-! ### The arithmetic of the rules -/

/-- U1, U2, U13, U16, U20: index and rank. -/
theorem test_rank :
    (rank 0#32 4, rank 1#32 4, rank 0x12345678#32 8, rank 0xDEADBEEF#32 13, rank 0x80000001#32 16) = (28, 28, 3, 1, 16) ∧
    (index 0x12345678#32 8, index 0xDEADBEEF#32 13, index 0x80000001#32 16) = (18, 7125, 32768) := by decide
/-- H5: the hash of "hello"; H1: of the empty element. -/
theorem test_hash : elementHash [0x68#8, 0x65#8, 0x6C#8, 0x6C#8, 0x6F#8] = 0x05E918D2#32 ∧ elementHash [] = 0#32 := by
  decide
/-- E13: raw estimate, quotient and logarithm at precision 8. -/
theorem test_estimator_e13 : rawEstimate [(0, 24#5)] 8 = 0x40672C0FCC88B72D#64 ∧
    estimateWith ln64 [(0, 24#5)] 8 = 0x3FF0080559588B25#64 := by decide +kernel
/-- Ties go to the even significand: `2^53 + 1` down, `2^53 + 3` up (00_scope.md R8). -/
theorem test_rne64_ties : rne64 (2 ^ 53 + 1) 1 = 0x4340000000000000#64 ∧ rne64 (2 ^ 53 + 3) 1 = 0x4340000000000002#64 := by
  decide +kernel
/-- `ALPHA` is the binary64 value nearest 0.7213 (R6). -/
theorem test_alpha : rne64 7213 10000 = Config.alpha := by decide +kernel

/-! ### The assembler (R67, R68) -/

/-- R162's example line and word. -/
theorem test_assemble_config :
    (readLine "CONFIG 8, PACKED, 0xDEADBEEF".toList).bind assemble = some [0xDEADBEEF00010801#64] := by decide +kernel
/-- R68: `ADD` of an element, and of the empty one. -/
theorem test_assemble_add :
    (readLine "ADD \"a,b\"".toList).map expand
      = some [.hashReset, .hashByte 0x61#8, .hashByte 0x2C#8, .hashByte 0x62#8, .addElem] ∧
    (readLine "ADD \"\"".toList).map expand = some [.hashReset, .addElem] := by decide +kernel
theorem test_assemble_byte : readLine "HASH_BYTE 'o'".toList = some (.hashByte 0x6F) := by decide +kernel
theorem test_assemble_refuses : (readLine "READ_REG 65536".toList).bind assemble = none := by decide +kernel

/-! ### Layout (D27) and memory -/

/-- Register 2 lies in bits 14..10 of the Packed bit string: byte 1, bits 6..2. -/
theorem test_layout : packedByte [(2, 0b10101#5)] 1 = 0b01010100#8 ∧ standardWord [(2, 0b10101#5)] 2 = 0x15#32 := by decide
/-- Writing 0 unlists an entry, and entries stay in rising order. -/
theorem test_memory_canonical : Memory.write [(2, 1#5), (15, 28#5)] 2 0#5 = [(15, 28#5)] ∧
    Memory.write [(2, 1#5), (15, 28#5)] 7 3#5 = [(2, 1#5), (7, 3#5), (15, 28#5)] := by decide
theorem test_reset_memory_wf : State.reset.reg.wf = true := by decide

/-! ### Witnesses: the hypotheses of the statements are met -/

theorem std4_meets_inv : SketchInv std4 where
  memWf := by decide
  unconfigured := by decide
  precLegal := by decide
  rankBound := fun _ => (by decide : ∀ i, i < 16 → (std4.reg.read i).toNat ≤ 28)
  unusedZero := by
    intro _ i hi
    have h : 16 ≤ i := hi
    show (if 2 = i then _ else if 15 = i then _ else _) = _
    rw [if_neg (by omega), if_neg (by omega)]
    rfl
  statusLegal := by decide
  errorResponse := by decide

theorem packed16_meets_inv : SketchInv packed16 where
  memWf := by decide
  unconfigured := by decide
  precLegal := by decide
  rankBound := by
    intro _ i _
    show ((if 65535 = i then 16#5 else 0#5 : Rank)).toNat ≤ 16
    split <;> decide
  unusedZero := by
    intro _ i hi
    have h : 65536 ≤ i := hi
    show (if 65535 = i then _ else _) = _
    rw [if_neg (by omega)]
    rfl
  statusLegal := by decide
  errorResponse := by decide

/-- An empty sketch at the lowest precision. -/
def empty4 : State := { State.reset with configured := true, prec := 4#5 }

theorem empty4_meets_inv : SketchInv empty4 where
  memWf := by decide
  unconfigured := by decide
  precLegal := by decide
  rankBound := fun _ i _ => Nat.zero_le _
  unusedZero := fun _ _ _ => rfl
  statusLegal := by decide
  errorResponse := by decide

/-- A sketch at precision 4 with every register at 1 (E4). -/
def full4 : State :=
  { State.reset with
    configured := true, prec := 4#5
    reg := [(0, 1#5), (1, 1#5), (2, 1#5), (3, 1#5), (4, 1#5), (5, 1#5), (6, 1#5), (7, 1#5), (8, 1#5), (9, 1#5),
      (10, 1#5), (11, 1#5), (12, 1#5), (13, 1#5), (14, 1#5), (15, 1#5)] }

theorem full4_meets_inv : SketchInv full4 where
  memWf := by decide
  unconfigured := by decide
  precLegal := by decide
  rankBound := fun _ => (by decide : ∀ i, i < 16 → (full4.reg.read i).toNat ≤ 28)
  unusedZero := by
    intro _ i hi
    have h : 16 ≤ i := hi
    simp only [full4, Memory.read]
    repeat rw [if_neg (by omega)]
  statusLegal := by decide
  errorResponse := by decide

theorem witness_HardwareResetLeavesResetValues :
    decode 0x0000000000000401#64 = .ok (.config 4#6 .standard 0#32) ∧ decode 0x000000000000000B#64 = .error .illegalOpcode := by
  decide
theorem witness_BlockWaitsWithStateHeld : std4.input = [] := rfl
theorem witness_StepRunsTheDecodedCommand :
    (giveCommand 0x000000000000000A#64 std4).input = .command 0x000000000000000A#64 :: [] ∧
    decode 0x000000000000000A#64 = .ok .status ∧
    (giveCommand 0x000000000000000B#64 std4).input = .command 0x000000000000000B#64 :: [] ∧
    decode 0x000000000000000B#64 = .error .illegalOpcode := by decide
theorem witness_EncodeOfDecodeIsTheWord : decode 0x0000000000003F01#64 = .ok (.config 63#6 .standard 0#32) := by decide
/-- Opcode 11 and 255 of the first clause; the rows of opcode 0 and 10 met and missed. -/
theorem witness_DecodingIsTotalWithNamedErrors :
    10 < ((0x000000000000000B#64 : Word64).extractLsb' 0 8).toNat ∧
    10 < ((0x00000000000000FF#64 : Word64).extractLsb' 0 8).toNat ∧
    ((0x0000000001000000#64 : Word64).extractLsb' 0 8).toNat = 0x00 ∧
    (0x0000000001000000#64 : Word64) &&& 0xFFFFFFFFFFFFFFFF#64 ≠ 0x0000000000000000#64 ∧
    ((0x000000000000000A#64 : Word64).extractLsb' 0 8).toNat = 0x0A ∧
    (0x000000000000000A#64 : Word64) &&& 0xFFFFFFFFFFFFFFFF#64 = 0x000000000000000A#64 ∧
    decode 0x0000000001000000#64 = .error .reservedBits := by decide
theorem witness_NopChangesOnlyTheResponse :
    (0#64 : Word64).extractLsb' 0 8 = 0x00#8 ∧ (0#64 : Word64).extractLsb' 8 56 = 0#56 ∧
    (0x0000000001000000#64 : Word64).extractLsb' 0 8 = 0x00#8 ∧
    (0x0000000001000000#64 : Word64).extractLsb' 8 56 ≠ 0#56 := by decide
/-- Both ends of the accepted range, and the values next to them. -/
theorem witness_ConfigConstructsAnEmptySketch :
    (4 ≤ (4#6).toNat ∧ (4#6).toNat ≤ 16) ∧ (4 ≤ (16#6).toNat ∧ (16#6).toNat ≤ 16) ∧
    ((3#6).toNat < 4 ∨ 16 < (3#6).toNat) ∧ ((17#6).toNat < 4 ∨ 16 < (17#6).toNat) ∧
    (0xDEADBEEF00010801#64 : Word64).extractLsb' 0 8 = 0x01#8 ∧
    (0xDEADBEEF00010801#64 : Word64).extractLsb' 17 15 = 0#15 ∧
    (0xDEADBEEF00010801#64 : Word64).extractLsb' 14 2 = 0#2 ∧
    (0x0000000000004401#64 : Word64).extractLsb' 0 8 = 0x01#8 ∧
    (0x0000000000004401#64 : Word64).extractLsb' 14 2 ≠ 0#2 := by decide
theorem witness_ClearZeroesEveryRegister :
    (std4.configured = true ∧ std4.mode = .standard) ∧
    (packed16Clearable.configured = true ∧ packed16Clearable.packedClear = .support) ∧
    (packed16.configured = true ∧ packed16.mode = .packed ∧ packed16.packedClear = .refuse) ∧
    State.reset.configured = false := by decide
/-- Precision 4 and 16, the ends of the legal range. -/
theorem witness_AddHashRaisesOneRegister :
    (std4.configured = true ∧ std4.reg.wf = true ∧ 4 ≤ std4.prec.toNat ∧ std4.prec.toNat ≤ 16) ∧
    (packed16.configured = true ∧ packed16.reg.wf = true ∧ 4 ≤ packed16.prec.toNat ∧ packed16.prec.toNat ≤ 16) ∧
    State.reset.configured = false := by decide
theorem witness_HashByteStepsTheAccumulator : std4.configured = true ∧ State.reset.configured = false := by decide
theorem witness_HashResetZeroesTheAccumulator : std4.configured = true ∧ State.reset.configured = false := by decide
theorem witness_AddElemAddsTheAccumulatedHash :
    (std4.configured = true ∧ std4.reg.wf = true ∧ 4 ≤ std4.prec.toNat ∧ std4.prec.toNat ≤ 16) ∧
    (packed16.configured = true ∧ packed16.reg.wf = true ∧ 4 ≤ packed16.prec.toNat ∧ packed16.prec.toNat ≤ 16 ∧
      packed16.acc = 0#32) ∧ State.reset.configured = false := by decide
theorem witness_EstimateReturnsTheEstimateAndKeepsTheSketch :
    std4.configured = true ∧ State.reset.configured = false := by decide
theorem witness_MemUsageReportsThePackedFootprint :
    (packed16.configured = true ∧ packed16.mode = .packed ∧ 4 ≤ packed16.prec.toNat) ∧
    (std4.configured = true ∧ std4.mode = .standard) ∧ State.reset.configured = false := by decide
/-- The last legal index and the first illegal one. -/
theorem witness_ReadRegReturnsAnInUseRegister :
    (std4.configured = true ∧ (15#16).toNat < 2 ^ std4.prec.toNat) ∧
    (std4.configured = true ∧ 2 ^ std4.prec.toNat ≤ (16#16).toNat) ∧ State.reset.configured = false := by decide
theorem witness_StatusReportsTheConfiguration :
    (0x000000000000000A#64 : Word64).extractLsb' 0 8 = 0x0A#8 ∧
    ((2 ≤ 2 ∧ 2 < 8) ∨ (13 ≤ 2 ∧ 2 < 16) ∨ (17 ≤ 2 ∧ 2 < 32)) ∧
    ((2 ≤ 31 ∧ 31 < 8) ∨ (13 ≤ 31 ∧ 31 < 16) ∨ (17 ≤ 31 ∧ 31 < 32)) := by decide
theorem witness_UnconfiguredBlockAcceptsOnlyThree :
    State.reset.configured = false ∧ needsConfigured .estimate = true ∧ needsConfigured .status = false := by decide
/-- An error that a word meets: CLEAR in Packed mode. -/
theorem witness_AnErrorHasNoOtherEffect :
    runWord 0x0000000000000002#64 packed16 = .next (raiseError .unsupported packed16) ∧
    (raiseError .unsupported packed16).lastStatus ≠ 0#8 := ⟨rfl, by decide⟩
theorem witness_EveryStepKeepsTheInvariant : SketchInv std4 ∧ step std4 = .next std4 := ⟨std4_meets_inv, rfl⟩
/-- The same in-use registers, an unused entry apart. -/
theorem witness_UnusedEntriesAreNeverRead :
    std4.reg.wf = true ∧ Memory.wf [(2, 1#5), (15, 28#5), (16, 9#5)] = true ∧
    (∀ k, k < 2 ^ std4.prec.toNat → Memory.read [(2, 1#5), (15, 28#5), (16, 9#5)] k = std4.reg.read k) ∧
    2 ^ std4.prec.toNat ≤ 16 ∧
    (∃ t, exec (.config 4#6 .standard 0#32) std4 = .next t ∧ t.lastStatus = 0#8) :=
  ⟨by decide, by decide, (by decide : ∀ k, k < 16 → _), by decide, _, rfl, rfl⟩
theorem witness_RegistersAreNeverLowered :
    SketchInv std4 ∧ decode 0x0000000000000000#64 ≠ .ok .clear ∧
    (∀ p mode seed, decode 0x0000000000000000#64 ≠ .ok (.config p mode seed)) ∧
    runWord 0x0000000000000000#64 std4 = .next (respond 0#64 std4) :=
  ⟨std4_meets_inv, by decide, fun _ _ _ h => by simp [show decode 0#64 = .ok .nop from rfl] at h, rfl⟩
/-- A NOP, and a CONFIG that ends with `OK`. -/
theorem witness_ConfigurationIsWrittenByConfigAlone :
    runWord 0x0000000000000000#64 std4 = .next (respond 0#64 std4) ∧
    (∃ t, runWord 0x0000000000001001#64 std4 = .next t ∧ t.prec = 16#5) := ⟨rfl, _, rfl, rfl⟩
theorem witness_TheSeedHasNoEffect :
    Instr.estimate ≠ .status ∧
    (∃ t, exec (.config 4#6 .standard 9#32) std4 = .next t ∧ t.seed ≠ std4.seed) := ⟨by decide, _, rfl, by decide⟩
theorem witness_TheAccumulatorHasFourWriters :
    (∃ t, exec .hashReset std4 = .next t ∧ t.acc ≠ std4.acc) ∧
    (∃ t, exec (.hashByte 0x6F#8) std4 = .next t ∧ t.lastStatus = 0#8) ∧
    (∃ t, exec .hashReset std4 = .next t ∧ t.lastStatus = 0#8) ∧ (∃ t, exec .addElem std4 = .next t ∧ t.lastStatus = 0#8) ∧
    (∃ t, exec (.config 16#6 .packed 0#32) std4 = .next t ∧ t.lastStatus = 0#8) :=
  ⟨⟨_, rfl, by decide⟩, ⟨_, rfl, rfl⟩, ⟨_, rfl, rfl⟩, ⟨_, rfl, rfl⟩, ⟨_, rfl, rfl⟩⟩
theorem witness_StickyErrorIsSetAndNeverCleared :
    runWord 0x0000000000000002#64 packed16 = .next (raiseError .unsupported packed16) := rfl
/-- Bit 15 and bit 17 of STATUS, next to the bit left out; any bit of another command. -/
theorem witness_TheOldResponseIsNeverRead :
    (Instr.status ≠ .status ∨ 15 ≠ 16) ∧ (Instr.status ≠ .status ∨ 17 ≠ 16) ∧ (Instr.nop ≠ .status ∨ 16 ≠ 16) := by decide
theorem witness_ReadingCommandsAreIdempotent :
    ∃ t, exec (.readReg 15#16) std4 = .next t ∧ t.lastStatus = 0#8 := ⟨_, rfl, rfl⟩
theorem witness_HashBytesAccumulateTheHash : packed16.configured = true ∧ packed16.acc = 0#32 := by decide
theorem witness_AddPseudoInstructionAddsTheElement : std4.configured = true := rfl
/-- Both ends of the precision range. -/
theorem witness_IndexIsTheTopBits : (4 ≤ 4 ∧ 4 ≤ 16) ∧ (4 ≤ 16 ∧ 16 ≤ 16) := by decide
/-- A zero low field and a non-zero one. -/
theorem witness_RankCountsLeadingZerosOfTheLowField :
    (4 ≤ 4 ∧ 4 ≤ 16) ∧ (0xF0000000#32 : Word32).toNat % 2 ^ (32 - 4) = 0 ∧
    (0xF0000001#32 : Word32).toNat % 2 ^ (32 - 4) ≠ 0 := by decide
theorem witness_PackedClampNeverChangesARank : (4 ≤ 4 ∧ 4 ≤ 16) ∧ (4 ≤ 16 ∧ 16 ≤ 16) := by decide
theorem witness_UpdatesDependOnlyOnTheSetOfHashes :
    SketchInv std4 ∧ std4.configured = true ∧ (15 < 2 ^ std4.prec.toNat) ∧
    (∀ c ∈ ([.hashReset, .addElem, .addHash 0xFFFFFFFF#32] : List Instr), restarts c = false) ∧
    (∀ c ∈ ([] : List Instr), restarts c = false) ∧
    appliedHashes std4.acc [.addHash 0xFFFFFFFF#32, .hashReset, .addElem, .addHash 0#32]
      = [0xFFFFFFFF#32, 0#32, 0#32] ∧
    appliedHashes std4.acc [.hashReset, .addElem, .addHash 0xFFFFFFFF#32] = [0#32, 0xFFFFFFFF#32] ∧
    (∀ h, h ∈ ([0xFFFFFFFF#32, 0#32, 0#32] : List Word32) ↔ h ∈ ([0#32, 0xFFFFFFFF#32] : List Word32)) :=
  ⟨std4_meets_inv, rfl, by decide, by decide, by decide, by decide, by decide, fun h => by simp [or_comm]⟩
theorem witness_StorageStrategiesAgree :
    SketchInv std4 ∧ std4.configured = true ∧ ({ std4 with mode := .packed } : State).configured = true ∧
    ({ std4 with mode := .packed } : State).prec = std4.prec ∧
    ({ std4 with mode := .packed } : State).lnDepartures = std4.lnDepartures ∧
    (∀ k, k < 2 ^ std4.prec.toNat → ({ std4 with mode := .packed } : State).reg.read k = std4.reg.read k) ∧
    (∀ c ∈ ([.hashByte 0x6F#8, .addElem, .addHash 0#32] : List Instr),
      restarts c = false ∧ c ≠ .memUsage ∧ c ≠ .status) :=
  ⟨std4_meets_inv, rfl, rfl, rfl, rfl, fun _ _ => rfl, by decide⟩
/-- One third, and the largest value covered. -/
theorem witness_RoundingIsToNearestTiesToEven :
    (0 < 3 ∧ 1 ≤ 3 * 2 ^ 1023) ∧ (0 < 1 ∧ 2 ^ 1023 ≤ 1 * 2 ^ 1023) :=
  ⟨⟨by decide, Nat.le_trans (Nat.le_add_left 1 2) (Nat.le_mul_of_pos_right 3 (by positivity))⟩, by decide,
    Nat.le_of_eq (Nat.one_mul _).symm⟩
/-- For the statements about every configured state that meets the invariant: precision 4 and precision 16. -/
theorem witness_configured_states :
    (SketchInv std4 ∧ std4.configured = true) ∧ (SketchInv packed16 ∧ packed16.configured = true) :=
  ⟨⟨std4_meets_inv, rfl⟩, packed16_meets_inv, rfl⟩
theorem witness_HarmonicSumIsExact : SketchInv packed16 ∧ packed16.configured = true := ⟨packed16_meets_inv, rfl⟩
theorem witness_RawEstimateIsTheRoundedHarmonicMean : SketchInv packed16 ∧ packed16.configured = true :=
  ⟨packed16_meets_inv, rfl⟩
/-- The small-range branch, on an empty sketch (E1's raw value is `ALPHA * 16`). -/
theorem witness_EstimateTakesTheSmallRangeBranch :
    SketchInv empty4 ∧ empty4.configured = true ∧ rawEstimate empty4.reg 4 = 0x402714E3BCD35A86#64 ∧
    value64 0x402714E3BCD35A86#64 ≤ 5 / 2 * 2 ^ 4 ∧ 0 < zeroCount empty4.reg 4 ∧ empty4.lnDepartures = [] ∧
    rne64 (2 ^ 4) (zeroCount empty4.reg 4) = 0x3FF0000000000000#64 ∧
    Finite64 (lnOf empty4.lnDepartures 0x3FF0000000000000#64) ∧
    value64 (lnOf empty4.lnDepartures 0x3FF0000000000000#64) < 12 := by
  refine ⟨empty4_meets_inv, rfl, by decide +kernel, by decide +kernel, by decide +kernel, rfl, by decide +kernel,
    ⟨by decide +kernel, by decide +kernel⟩, by decide +kernel⟩
/-- The raw branch with `raw <= 2.5 * m`: no register is 0 (E4). -/
theorem witness_EstimateTakesTheRawBranch :
    SketchInv full4 ∧ full4.configured = true ∧
    ¬ (value64 (rawEstimate full4.reg 4) ≤ 5 / 2 * 2 ^ 4 ∧ 0 < zeroCount full4.reg 4) :=
  ⟨full4_meets_inv, rfl, fun h => absurd h.2 (by decide +kernel)⟩
theorem witness_EmptySketchEstimatesZero :
    SketchInv empty4 ∧ empty4.configured = true ∧ (∀ i, i < 2 ^ empty4.prec.toNat → empty4.reg.read i = 0#5) ∧
    (empty4.mode = .standard ∨ empty4.packedClear = .support) ∧
    (4 ≤ (4#6).toNat ∧ (4#6).toNat ≤ 16) ∧ (4 ≤ (16#6).toNat ∧ (16#6).toNat ≤ 16) ∧
    lnOf empty4.lnDepartures 0x3FF0000000000000#64 = 0#64 ∧ ln64 0x3FF0000000000000#64 = 0#64 :=
  ⟨empty4_meets_inv, rfl, fun _ _ => rfl, .inl rfl, by decide, by decide, by decide +kernel, by decide +kernel⟩
theorem witness_EstimatesAreNormalOrZero :
    SketchInv empty4 ∧ empty4.configured = true ∧ empty4.lnDepartures = [] ∧
    NormalOrZero64 (lnOf empty4.lnDepartures (rne64 (2 ^ empty4.prec.toNat) (zeroCount empty4.reg empty4.prec.toNat))) ∧
    value64 (lnOf empty4.lnDepartures (rne64 (2 ^ empty4.prec.toNat) (zeroCount empty4.reg empty4.prec.toNat))) < 12 :=
  ⟨empty4_meets_inv, rfl, rfl, ⟨⟨by decide +kernel, by decide +kernel⟩, .inl (by decide +kernel)⟩, by decide +kernel⟩
/-- `q = 1` and `q = 65536`, the ends of the range, and a certified logarithm. -/
theorem witness_LogarithmIsCorrectlyRoundedWhereCertified :
    (Finite64 0x3FF0000000000000#64 ∧ 1 ≤ value64 0x3FF0000000000000#64 ∧ value64 0x3FF0000000000000#64 ≤ 65536) ∧
    (Finite64 0x40F0000000000000#64 ∧ 1 ≤ value64 0x40F0000000000000#64 ∧ value64 0x40F0000000000000#64 ≤ 65536) ∧
    lnCertified 0x40F0000000000000#64 = true := by
  refine ⟨⟨⟨by decide, by decide⟩, by decide +kernel, by decide +kernel⟩,
    ⟨⟨by decide, by decide⟩, by decide +kernel, by decide +kernel⟩, by decide +kernel⟩
theorem witness_LogarithmsUpToPrecisionEightAreCertified :
    (4 ≤ 4 ∧ 4 ≤ 8 ∧ 1 ≤ 1 ∧ 1 ≤ 2 ^ 4) ∧ (4 ≤ 8 ∧ 8 ≤ 8 ∧ 1 ≤ 256 ∧ 256 ≤ 2 ^ 8) := by decide
theorem witness_EveryLogarithmTakenIsCorrectlyRounded :
    (4 ≤ 4 ∧ 4 ≤ 16 ∧ 1 ≤ 1 ∧ 1 ≤ 2 ^ 4) ∧ (4 ≤ 16 ∧ 16 ≤ 16 ∧ 1 ≤ 65536 ∧ 65536 ≤ 2 ^ 16) := by decide
theorem witness_EveryLogarithmIsAValueOfTheParameter :
    step std4 = .next std4 ∧ packed16.configured = true ∧ packed16.prec.toNat ≤ 16 := ⟨rfl, by decide, by decide⟩
theorem witness_LayoutsHoldTheRegisters : 0 < 5 ∧ 4 < 5 := by decide
/-- A line that is refused and one that is assembled. -/
theorem witness_AssembledWordsDecodeToTheirCommands :
    ((0 : Nat) < 64 ∧ (0 : Nat) < 4 ∧ (17 : Nat) < 64 ∧ 16 < 17 ∧ (63 : Nat) < 64 ∧ 2 ^ 32 - 1 < 2 ^ 32 ∧ 64 ≤ 64) ∧
    (∀ c ∈ [0x20, 0x7E], 0x20 ≤ c ∧ c ≤ 0x7E) ∧ (∃ c ∈ [0x7F], c < 0x20 ∨ 0x7E < c) ∧
    assemble (.readReg 65536) = none ∧ assemble (.readReg 65535) = some [0x0000000000FFFF09#64] := by decide
end Sys2Proof.Tests
end

section
/-!
PROOFS. The family of 10_state.md: what a command does to each piece of the state, said once for every command, and the
statements about unused entries (R23), register values (R25), the configuration (R27), the seed (R28), the accumulator (R29)
and the sticky error bit (R32).
-/

namespace Sys2Proof.Machine

/-! ### How a command ends -/

/-- The error of a command's own check, after the one for a construction. The last arm covers the commands that have no check of
their own. -/
def ownRefusal : Instr → ErrorCode
  | .config _ _ _ => .invalidPrecision
  | .clear => .unsupported
  | .memUsage => .unsupported
  | .readReg _ => .indexRange
  | _ => .notConfigured

/-- The error with which a command that is not accepted ends (60_exceptions.md R181, R183). -/
def refusalCode (i : Instr) (s : State) : ErrorCode :=
  if needsConfigured i = true ∧ s.configured = false then .notConfigured else ownRefusal i

theorem exec_of_unconfigured {i : Instr} {s : State} (hn : needsConfigured i = true) (hc : s.configured = false) :
    exec i s = .next (raiseError .notConfigured s) := by
  cases i with
  | nop | config | status => exact absurd hn Bool.false_ne_true
  | _ => exact whenConfigured_false hc _

/-- `exec_of_not_accepts` with its error named. -/
theorem exec_of_refused {i : Instr} {s : State} (h : ¬ Accepts i s) :
    exec i s = .next (raiseError (refusalCode i s) s) := by
  by_cases hn : needsConfigured i = true ∧ s.configured = false
  · rw [exec_of_unconfigured hn.1 hn.2, refusalCode, if_pos hn]
  · have hc : needsConfigured i = true → s.configured = true := fun hi => by simpa [hi] using hn
    rw [refusalCode, if_neg hn]
    cases i with
    | config p mode seed => exact if_neg fun hp => h ⟨hc, (precisionOk_iff p).1 hp⟩
    | clear => exact (whenConfigured_true (hc rfl) _).trans (if_pos (Decidable.not_not.1 fun hp => h ⟨hc, hp⟩))
    | memUsage =>
      have hm : s.mode = .standard := by
        cases hm : s.mode with
        | standard => rfl
        | packed => exact absurd ⟨hc, hm⟩ h
      exact (whenConfigured_true (hc rfl) _).trans (if_pos hm)
    | readReg k => exact (whenConfigured_true (hc rfl) _).trans (if_pos (Nat.not_lt.1 fun hk => h ⟨hc, hk⟩))
    | _ => exact absurd ⟨hc, trivial⟩ h

theorem exec_total (i : Instr) (s : State) : ∃ t, exec i s = .next t := by
  by_cases ha : Accepts i s
  · exact ⟨_, exec_of_accepts ha⟩
  · exact ⟨_, exec_of_refused ha⟩

/-- A command that ended with `OK` was accepted and has its own effect. -/
theorem exec_ok {i : Instr} {s t : State} (h : exec i s = .next t) (hok : t.lastStatus = 0#8) :
    Accepts i s ∧ t = respond (resultOf i s) (effect i s) := by
  obtain ⟨e, rfl⟩ | hacc := exec_cases h
  · exact absurd hok (code_ne_ok e)
  · exact hacc

/-- What a command word can do: end in an error with no other effect, or be a command that is accepted. -/
theorem runWord_cases {w : Word64} {s t : State} (h : runWord w s = .next t) :
    (∃ e, t = raiseError e s) ∨
    (∃ i, decode w = .ok i ∧ Accepts i s ∧ t = respond (resultOf i s) (effect i s)) := by
  cases hd : decode w with
  | error e =>
    rw [runWord_of_error hd] at h
    injection h with h
    exact .inl ⟨_, h.symm⟩
  | ok i =>
    rw [runWord_of_ok hd] at h
    exact (exec_cases h).imp_right fun hacc => ⟨i, rfl, hacc⟩

/-! ### Two states that the checks cannot tell apart -/

/-- The two states agree in the fields that decide whether a command is accepted. -/
def SameGuards (s s' : State) : Prop :=
  s'.configured = s.configured ∧ s'.prec = s.prec ∧ s'.mode = s.mode ∧ s'.packedClear = s.packedClear

theorem accepts_congr {s s' : State} (h : SameGuards s s') (i : Instr) : Accepts i s' ↔ Accepts i s := by
  obtain ⟨hc, hp, hm, hd⟩ := h
  simp only [Accepts, hc, hp, hm, hd]

theorem refusalCode_congr {s s' : State} (h : SameGuards s s') (i : Instr) : refusalCode i s' = refusalCode i s := by
  simp only [refusalCode, h.1]

/-- Such states end a command alike: in the same error, or each with its own effect and result. -/
theorem exec_pair {s s' : State} (h : SameGuards s s') (i : Instr) :
    (∃ e, exec i s = .next (raiseError e s) ∧ exec i s' = .next (raiseError e s')) ∨
    (Accepts i s ∧ exec i s = .next (respond (resultOf i s) (effect i s)) ∧
      exec i s' = .next (respond (resultOf i s') (effect i s'))) := by
  by_cases ha : Accepts i s
  · exact .inr ⟨ha, exec_of_accepts ha, exec_of_accepts ((accepts_congr h i).2 ha)⟩
  · have ha' : ¬ Accepts i s' := (accepts_congr h i).not.2 ha
    exact .inl ⟨_, exec_of_refused ha, refusalCode_congr h i ▸ exec_of_refused ha'⟩

/-! ### Index and rank -/

/-- The index names a register in use (41_update.md R100). -/
theorem index_lt (h : Word32) {B : Nat} (hB : B ≤ 32) : index h B < 2 ^ B := by
  have hpow : 2 ^ B * 2 ^ (32 - B) = 2 ^ 32 := by rw [← pow_add, Nat.add_sub_cancel' hB]
  rw [index, BitVec.toNat_ushiftRight, Nat.shiftRight_eq_div_pow]
  exact Nat.div_lt_of_lt_mul (by rw [mul_comm, hpow]; exact h.isLt)

theorem index_prec_lt (h : Word32) (B : BitVec 5) : index h B.toNat < 2 ^ B.toNat :=
  index_lt h (by have := B.isLt; omega)

/-- The bits that `leadingZeros` counts are 0. -/
theorem getLsbD_of_leadingZeros (x : Word32) {n i : Nat} (hi : i < n) (hz : n ≤ i + leadingZeros x n) :
    x.getLsbD i = false := by
  induction n with
  | zero => omega
  | succ n ih =>
    rw [leadingZeros] at hz
    split at hz
    · omega
    · next hn =>
      rcases Nat.lt_succ_iff_lt_or_eq.1 hi with hlt | rfl
      · exact ih hlt (by omega)
      · simpa using hn

/-- A remainder whose `32 - B` high bits are 0 is 0, its low `B` bits being 0 by the shift. -/
theorem remainder_eq_zero_of_clz32 {h : Word32} {B : Nat} (hz : 32 - B ≤ clz32 (remainder h B)) :
    remainder h B = 0#32 := by
  refine BitVec.eq_of_getLsbD_eq fun i hi => ?_
  rw [BitVec.getLsbD_zero]
  by_cases hB : i < B
  · simp [remainder, hB]
  · exact getLsbD_of_leadingZeros _ hi (by rw [clz32] at hz; omega)

/-- The rank's upper bound (41_update.md R101). -/
theorem rank_le (h : Word32) (B : Nat) : rank h B ≤ 32 - B := by
  rw [rank]
  split
  · exact le_rfl
  · next hne =>
    have : clz32 (remainder h B) < 32 - B := Nat.lt_of_not_le fun hz => hne (remainder_eq_zero_of_clz32 hz)
    omega

theorem storedRank_le (mode : Mode) (r : Nat) : storedRank mode r ≤ r := by
  cases mode with
  | standard => exact le_rfl
  | packed => exact Nat.min_le_left _ _

/-! ### The register update -/

/-- The update leaves the unused entries alone (10_state.md R23). -/
theorem update_read_unused (h : Word32) {s : State} {k : Nat} (hk : 2 ^ s.prec.toNat ≤ k) :
    (update h s).reg.read k = s.reg.read k :=
  Memory.read_write_other _ _ (by have := index_prec_lt h s.prec; omega)

/-- The update lowers no entry (41_update.md R104), the rank written being one of 5 bits. -/
theorem update_read_le (h : Word32) {s : State} (hwf : s.reg.wf = true) (hprec : 4 ≤ s.prec.toNat) (k : Nat) :
    (s.reg.read k).toNat ≤ ((update h s).reg.read k).toNat := by
  rw [update_reg, Memory.read_raise hwf]
  split
  · next hik =>
    have hr := (storedRank_le s.mode _).trans (rank_le h s.prec.toNat)
    rw [maxRank_toNat _ (by omega), hik]
    exact le_max_left _ _
  · exact le_rfl

/-- An entry after the update depends on that entry alone. -/
theorem update_read_congr (h : Word32) {s : State} {reg' : Memory} (hwf : s.reg.wf = true) (hwf' : reg'.wf = true)
    {k : Nat} (hk : reg'.read k = s.reg.read k) :
    (update h { s with reg := reg' }).reg.read k = (update h s).reg.read k := by
  simp only [update_reg, Memory.read_raise hwf, Memory.read_raise hwf', hk]
  split
  · next hik => rw [hik, hk]
  · rfl

/-! ### The estimate reads the registers in use alone (42_estimator.md R129) -/

theorem harmonicSum_congr {reg reg' : Memory} {B : Nat} (h : ∀ k, k < 2 ^ B → reg'.read k = reg.read k) :
    harmonicSum reg' B = harmonicSum reg B := by
  rw [harmonicSum_eq_sum, harmonicSum_eq_sum]
  exact Finset.sum_congr rfl fun k hk => by rw [h k (Finset.mem_range.1 hk)]

theorem zeroCount_congr {reg reg' : Memory} {B : Nat} (h : ∀ k, k < 2 ^ B → reg'.read k = reg.read k) :
    zeroCount reg' B = zeroCount reg B := by
  rw [zeroCount_eq_sum, zeroCount_eq_sum]
  exact Finset.sum_congr rfl fun k hk => by rw [h k (Finset.mem_range.1 hk)]

theorem rawEstimate_congr {reg reg' : Memory} {B : Nat} (h : ∀ k, k < 2 ^ B → reg'.read k = reg.read k) :
    rawEstimate reg' B = rawEstimate reg B := by
  rw [rawEstimate, rawEstimate, harmonicSum_congr h]

theorem smallRange_congr {reg reg' : Memory} {B : Nat} (h : ∀ k, k < 2 ^ B → reg'.read k = reg.read k) :
    smallRange reg' B = smallRange reg B := by
  rw [smallRange, smallRange, rawEstimate_congr h, zeroCount_congr h]

/-- The estimate's two branches (42_estimator.md R123), `estimateWith` being irreducible. -/
theorem estimateWith_eq (ln : Word64 → Word64) (reg : Memory) (B : Nat) :
    estimateWith ln reg B = if smallRange reg B = true then linearCounting ln reg B else rawEstimate reg B := by
  unfold estimateWith
  rfl

theorem estimateWith_congr (ln : Word64 → Word64) {reg reg' : Memory} {B : Nat}
    (h : ∀ k, k < 2 ^ B → reg'.read k = reg.read k) : estimateWith ln reg' B = estimateWith ln reg B := by
  rw [estimateWith_eq, estimateWith_eq, linearCounting, linearCounting, smallRange_congr h, rawEstimate_congr h,
    zeroCount_congr h]

/-! ### What an accepted command does to the registers and to `ACC` -/

theorem restarts_iff (i : Instr) : restarts i = true ↔ i = .clear ∨ ∃ p mode seed, i = .config p mode seed := by
  cases i <;> simp [restarts]

theorem restarts_eq_false {i : Instr} (hclear : i ≠ .clear) (hconfig : ∀ p mode seed, i ≠ .config p mode seed) :
    restarts i = false := by
  rw [← Bool.not_eq_true, restarts_iff]
  rintro (h | ⟨p, mode, seed, h⟩)
  · exact hclear h
  · exact hconfig p mode seed h

theorem effect_read_unused {i : Instr} (hr : restarts i = false) {s : State} {k : Nat} (hk : 2 ^ s.prec.toNat ≤ k) :
    (effect i s).reg.read k = s.reg.read k := by
  cases i with
  | config | clear => exact Bool.noConfusion hr
  | addHash h => exact update_read_unused h hk
  | addElem => exact update_read_unused s.acc hk
  | _ => rfl

theorem effect_read_le {i : Instr} (hr : restarts i = false) {s : State} (hs : SketchInv s) (ha : Accepts i s) (k : Nat) :
    (s.reg.read k).toNat ≤ ((effect i s).reg.read k).toNat := by
  cases i with
  | config | clear => exact Bool.noConfusion hr
  | addHash h => exact update_read_le h hs.memWf (hs.precLegal (ha.1 rfl)).1 k
  | addElem => exact update_read_le s.acc hs.memWf (hs.precLegal (ha.1 rfl)).1 k
  | _ => exact le_rfl

/-- An accepted CONFIG or CLEAR leaves a configured block with every entry 0 (10_state.md R23). -/
theorem effect_reg?_of_restarts {i : Instr} (hr : restarts i = true) {s : State} (ha : Accepts i s) {k : Nat}
    (hk : k < 65536) : (effect i s).reg? k = some 0#5 := by
  cases i with
  | config p mode seed => exact State.reg?_of_configured rfl hk
  | clear => exact State.reg?_of_configured (s := effect .clear s) (ha.1 rfl) hk
  | _ => exact absurd hr Bool.false_ne_true

theorem effect_acc (i : Instr) (s : State) : (effect i s).acc = nextAcc s.acc i := by
  cases i <;> rfl

/-- One accumulation step as integer arithmetic (40_hash.md R82). -/
theorem hashStep_toNat (a : Word32) (c : Byte) : (hashStep a c).toNat = (a.toNat * 31 + c.toNat) % 2 ^ 32 := by
  simp [hashStep, Config.hashMult]

/-! ### Accepted commands on two states that differ in one field -/

theorem effect_with_reg (i : Instr) (s : State) (reg' : Memory) :
    effect i { s with reg := reg' } = { effect i s with reg := (effect i { s with reg := reg' }).reg } := by
  cases i <;> rfl

theorem resultOf_with_reg {i : Instr} {s : State} (ha : Accepts i s) {reg' : Memory}
    (h : ∀ k, k < 2 ^ s.prec.toNat → reg'.read k = s.reg.read k) :
    resultOf i { s with reg := reg' } = resultOf i s := by
  cases i with
  | estimate => exact estimateWith_congr _ h
  | readReg k => exact congrArg (BitVec.setWidth 64) (h k.toNat ha.2)
  | _ => rfl

/-- The registers in use after an accepted command depend on the registers in use before it alone. -/
theorem effect_with_reg_read {i : Instr} {s : State} {reg' : Memory} (hwf : s.reg.wf = true) (hwf' : reg'.wf = true)
    (h : ∀ k, k < 2 ^ s.prec.toNat → reg'.read k = s.reg.read k) {k : Nat} (hk : k < 2 ^ (effect i s).prec.toNat) :
    (effect i { s with reg := reg' }).reg.read k = (effect i s).reg.read k := by
  cases i with
  | config | clear => rfl
  | addHash x => exact update_read_congr x hwf hwf' (h k hk)
  | addElem => exact update_read_congr s.acc hwf hwf' (h k hk)
  | _ => exact h k hk

theorem effect_with_seed (i : Instr) (s : State) (seed : Word32) :
    effect i { s with seed := seed } = { effect i s with seed := (effect i { s with seed := seed }).seed } := by
  cases i <;> rfl

theorem resultOf_with_seed {i : Instr} (hi : i ≠ .status) (s : State) (seed : Word32) :
    resultOf i { s with seed := seed } = resultOf i s := by
  cases i with
  | status => exact absurd rfl hi
  | _ => rfl

theorem resultOf_with_acc (i : Instr) (s : State) (acc : Word32) :
    resultOf i { s with acc := acc } = resultOf i s := by
  cases i <;> rfl

/-! ### Unused entries (10_state.md R23) -/

/-- Unused entries reach no response and no register in use. -/
theorem exec_with_reg (i : Instr) {s : State} {reg' : Memory} (hwf : s.reg.wf = true) (hwf' : reg'.wf = true)
    (h : ∀ k, k < 2 ^ s.prec.toNat → reg'.read k = s.reg.read k) : ∃ t t',
      exec i s = .next t ∧ exec i { s with reg := reg' } = .next t' ∧
      t' = { t with reg := t'.reg } ∧ (∀ k, k < 2 ^ t.prec.toNat → t'.reg.read k = t.reg.read k) := by
  have hguards : SameGuards s { s with reg := reg' } := ⟨rfl, rfl, rfl, rfl⟩
  obtain ⟨e, ht, ht'⟩ | ⟨ha, ht, ht'⟩ := exec_pair hguards i
  · exact ⟨_, _, ht, ht', rfl, h⟩
  · rw [resultOf_with_reg ha h] at ht'
    exact ⟨_, _, ht, ht', congrArg (respond _) (effect_with_reg i s reg'),
      fun k hk => effect_with_reg_read hwf hwf' h hk⟩

theorem exec_read_unused {i : Instr} (hr : restarts i = false) {s t : State} (h : exec i s = .next t) {k : Nat}
    (hk : 2 ^ s.prec.toNat ≤ k) : t.reg.read k = s.reg.read k := by
  obtain ⟨e, rfl⟩ | ⟨-, rfl⟩ := exec_cases h
  · rfl
  · exact effect_read_unused hr hk

/-- Settles O25: two states that differ in unused entries pass the same checks, every update goes to an index in use, and the
estimate's two sums range over the registers in use. -/
theorem unusedEntriesAreNeverRead : Obligations.UnusedEntriesAreNeverRead := by
  refine ⟨fun i s reg' hwf hwf' h => exec_with_reg i hwf hwf' h, fun i s hclear hconfig => ?_, fun i s hi => ?_,
    fun s k => State.reg?_of_unconfigured rfl k⟩
  · obtain ⟨t, ht⟩ := exec_total i s
    exact ⟨t, ht, fun k hk => exec_read_unused (restarts_eq_false hclear hconfig) ht hk⟩
  · obtain ⟨t, ht⟩ := exec_total i s
    refine ⟨t, ht, fun hok k hk => ?_⟩
    obtain ⟨ha, rfl⟩ := exec_ok ht hok
    exact effect_reg?_of_restarts ((restarts_iff i).2 hi) ha hk

/-! ### Register values (R25) -/

/-- Settles O26: only an update writes a register outside CLEAR and CONFIG, and it writes the larger of the old value and a
rank that fits 5 bits. -/
theorem registersAreNeverLowered : Obligations.RegistersAreNeverLowered := by
  intro s t w hs hclear hconfig h k
  obtain ⟨e, rfl⟩ | ⟨i, hd, ha, rfl⟩ := runWord_cases h
  · exact le_rfl
  · have hr : restarts i = false :=
      restarts_eq_false (fun hi => hclear (hi ▸ hd)) fun p mode seed hi => hconfig p mode seed (hi ▸ hd)
    exact effect_read_le hr hs ha k

/-! ### The configuration and the seed (R27, R28) -/

/-- An accepted precision fits the 5 bits of `PREC` (44_control.md R161, R162). -/
theorem setWidth_prec_toNat {p : BitVec 6} (h : p.toNat ≤ 16) : (p.setWidth 5).toNat = p.toNat := by
  rw [BitVec.toNat_setWidth]
  exact Nat.mod_eq_of_lt (by omega)

/-- Settles O27: an error keeps the configuration, and of the accepted commands' effects CONFIG's alone writes it. -/
theorem configurationIsWrittenByConfigAlone : Obligations.ConfigurationIsWrittenByConfigAlone := by
  refine ⟨fun s t w h => ?_, fun s => ⟨rfl, rfl, rfl⟩⟩
  obtain ⟨e, rfl⟩ | ⟨i, hd, ha, rfl⟩ := runWord_cases h
  · exact .inl ⟨rfl, rfl, rfl⟩
  · cases i with
    | config p mode seed => exact .inr ⟨p, mode, seed, hd, rfl, rfl, setWidth_prec_toNat ha.2.2, rfl⟩
    | _ => exact .inl ⟨rfl, rfl, rfl⟩

/-- Settles O28: no check reads `SEED`, no result but STATUS's does, and no effect carries it into another field. -/
theorem theSeedHasNoEffect : Obligations.TheSeedHasNoEffect := by
  refine ⟨fun i s seed hi => ?_, fun i s t h hne => ?_⟩
  · have hguards : SameGuards s { s with seed := seed } := ⟨rfl, rfl, rfl, rfl⟩
    obtain ⟨e, ht, ht'⟩ | ⟨-, ht, ht'⟩ := exec_pair hguards i
    · exact ⟨_, _, ht, ht', rfl⟩
    · rw [resultOf_with_seed hi] at ht'
      exact ⟨_, _, ht, ht', congrArg (respond _) (effect_with_seed i s seed)⟩
  · obtain ⟨e, rfl⟩ | ⟨-, rfl⟩ := exec_cases h
    · exact absurd rfl hne
    · cases i with
      | config p mode seed => exact ⟨p, mode, rfl, rfl⟩
      | _ => exact absurd rfl hne

/-! ### The accumulator (R29) -/

/-- No command returns `ACC`. -/
theorem exec_with_acc_response (i : Instr) (s : State) (acc : Word32) : ∃ t t',
    exec i s = .next t ∧ exec i { s with acc := acc } = .next t' ∧ t'.response = t.response := by
  have hguards : SameGuards s { s with acc := acc } := ⟨rfl, rfl, rfl, rfl⟩
  obtain ⟨e, ht, ht'⟩ | ⟨-, ht, ht'⟩ := exec_pair hguards i
  · exact ⟨_, _, ht, ht', rfl⟩
  · rw [resultOf_with_acc] at ht'
    exact ⟨_, _, ht, ht', rfl⟩

theorem exec_acc_of_ok {i : Instr} {s t : State} (h : exec i s = .next t) (hok : t.lastStatus = 0#8) :
    t.acc = nextAcc s.acc i := by
  obtain ⟨-, rfl⟩ := exec_ok h hok
  exact effect_acc i s

theorem exec_clear_acc {s t : State} (h : exec .clear s = .next t) : t.acc = s.acc := by
  obtain ⟨e, rfl⟩ | ⟨-, rfl⟩ := exec_cases h
  · rfl
  · rfl

/-- Settles O29: `ACC` after an error is as before, after a command that ended with `OK` it is `nextAcc`, and no check and no
result reads it. -/
theorem theAccumulatorHasFourWriters : Obligations.TheAccumulatorHasFourWriters := by
  refine ⟨fun s => rfl, exec_with_acc_response, fun i s t h => ?_, fun i s => ?_⟩
  · obtain ⟨e, rfl⟩ | ⟨-, rfl⟩ := exec_cases h
    · exact .inl rfl
    · cases i with
      | hashByte c => exact .inr ⟨rfl, .inl ⟨c, rfl, hashStep_toNat s.acc c⟩⟩
      | hashReset => exact .inr ⟨rfl, .inr (.inl ⟨rfl, rfl⟩)⟩
      | addElem => exact .inr ⟨rfl, .inr (.inr (.inl ⟨rfl, rfl⟩))⟩
      | config p mode seed => exact .inr ⟨rfl, .inr (.inr (.inr ⟨p, mode, seed, rfl, rfl⟩))⟩
      | _ => exact .inl rfl
  · obtain ⟨t, ht⟩ := exec_total i s
    refine ⟨t, ht, fun hi => exec_clear_acc (hi ▸ ht), fun hok => ?_⟩
    rw [exec_acc_of_ok ht hok]
    refine ⟨?_, ?_, ?_, ?_⟩
    · rintro c rfl
      exact hashStep_toNat s.acc c
    · rintro rfl
      rfl
    · rintro rfl
      rfl
    · rintro p mode seed rfl
      rfl

/-! ### The sticky error bit (R32) -/

/-- Settles O30: an error sets the bit and its status is not `OK`, an accepted command keeps the bit and ends with `OK`. -/
theorem stickyErrorIsSetAndNeverCleared : Obligations.StickyErrorIsSetAndNeverCleared := by
  refine ⟨fun s t w h => ?_, fun s => rfl⟩
  obtain ⟨e, rfl⟩ | ⟨i, -, -, rfl⟩ := runWord_cases h
  · simp [code_ne_ok]
  · simp [effect_stickyErr]

end Sys2Proof.Machine
end

section
/-!
PROOFS. The family of 20_memory.md: the commands that only read (R44).
-/

namespace Sys2Proof.Machine

/-! ### Ending a command twice over: the later response replaces the earlier one -/

@[simp] theorem respond_respond (r r' : Word64) (s : State) : respond r (respond r' s) = respond r s := rfl
@[simp] theorem raiseError_raiseError (e e' : ErrorCode) (s : State) :
    raiseError e (raiseError e' s) = raiseError e s := rfl

theorem respond_sameGuards (r : Word64) (s : State) : SameGuards s (respond r s) := ⟨rfl, rfl, rfl, rfl⟩

theorem raiseError_sameGuards (e : ErrorCode) (s : State) : SameGuards s (raiseError e s) := ⟨rfl, rfl, rfl, rfl⟩

/-- No result, that of STATUS included, reads the response (10_state.md R31). -/
theorem resultOf_respond (i : Instr) (r : Word64) (s : State) : resultOf i (respond r s) = resultOf i s := by
  cases i <;> rfl

/-! ### Repeating a command (R44) -/

/-- The commands that only read have no effect but their response. -/
theorem effect_of_reading {i : Instr} (hi : i = .nop ∨ i = .estimate ∨ i = .status ∨ i = .memUsage ∨ ∃ k, i = .readReg k)
    (s : State) : effect i s = s := by
  obtain rfl | rfl | rfl | rfl | ⟨k, rfl⟩ := hi <;> rfl

/-- Whatever the command, a refusal repeats itself. -/
theorem exec_again_of_refused {i : Instr} {s : State} (h : ¬ Accepts i s) :
    exec i (raiseError (refusalCode i s) s) = .next (raiseError (refusalCode i s) s) := by
  have hguards := raiseError_sameGuards (refusalCode i s) s
  rw [exec_of_refused ((accepts_congr hguards i).not.2 h), refusalCode_congr hguards, raiseError_raiseError]

/-- An accepted command without an effect is accepted again, with the same result. -/
theorem exec_again_of_accepts {i : Instr} (hi : ∀ s, effect i s = s) {s : State} (h : Accepts i s) :
    exec i (respond (resultOf i s) s) = .next (respond (resultOf i s) s) := by
  have hguards := respond_sameGuards (resultOf i s) s
  rw [exec_of_accepts ((accepts_congr hguards i).2 h), hi, resultOf_respond, respond_respond]

/-- Settles O32: a reading command ends with `respond` or with `raiseError` as its whole effect, and so does its repetition. -/
theorem readingCommandsAreIdempotent : Obligations.ReadingCommandsAreIdempotent := by
  intro i s hi
  have heffect := effect_of_reading hi
  by_cases ha : Accepts i s
  · have hexec : exec i s = .next (respond (resultOf i s) s) := by rw [exec_of_accepts ha, heffect]
    exact ⟨_, hexec, respond_sketchKept _ s, exec_again_of_accepts heffect ha, fun _ => rfl⟩
  · exact ⟨_, exec_of_refused ha, raiseError_sketchKept _ s, exec_again_of_refused ha,
      fun hok => absurd hok (code_ne_ok _)⟩

end Sys2Proof.Machine
end

section
/-!
PROOFS. The family of 30_encoding.md: what decoding a word answers, said once for a word above the opcode map and for a word of
one of its rows (R63, R64), and the statement that decoding is total (R64, R65).
-/

namespace Sys2Proof.Machine

/-! ### The opcode map (R63) -/

/-- A row with its opcode, as the statement about the map lists it. -/
def rowEntry : OpcodeRow × Nat → Nat × Word64 × Word64
  | (row, n) => (n, row.pattern, row.mask)

/-- A row stands in the map at the position of its opcode. -/
theorem mem_rowEntries_iff {n : Nat} {pattern mask : Word64} :
    (n, pattern, mask) ∈ opcodeMap.zipIdx.map rowEntry ↔
      ∃ row, opcodeMap[n]? = some row ∧ row.pattern = pattern ∧ row.mask = mask := by
  simp [rowEntry, List.mem_zipIdx_iff_getElem?]

/-- Every row has a command, whatever the operand fields hold. -/
theorem commandOf_of_row {n : Nat} {row : OpcodeRow} (h : opcodeMap[n]? = some row) (w : Word64) :
    ∃ i, commandOf n w = some i := by
  obtain ⟨hn, -⟩ := List.getElem?_eq_some_iff.1 h
  change n < 11 at hn
  interval_cases n <;> exact ⟨_, rfl⟩

/-- The assembler's word of a command carries the opcode by which the decoder named it. -/
theorem encode_opcode {n : Nat} {w : Word64} {i : Instr} (h : commandOf n w = some i) :
    (encode i).extractLsb' 0 8 = BitVec.ofNat 8 n := by
  unfold commandOf at h
  split at h <;> cases h
  -- CONFIG, ADD_HASH, HASH_BYTE and READ_REG have operand fields above the opcode; the other words are literals.
  case h_2 | h_4 | h_5 | h_10 => exact BitVec.extractLsb'_append_eq_right
  all_goals rfl

/-! ### What `decode` answers (R64) -/

theorem decode_of_opcode_gt {w : Word64} (h : 10 < (opc w).toNat) : decode w = .error .illegalOpcode := by
  have hnone : opcodeMap[(opc w).toNat]? = none := List.getElem?_eq_none h
  simp only [decode, hnone]

/-- In a row of the map, the mask alone decides whether the word is its command. -/
theorem decode_of_row {w : Word64} {row : OpcodeRow} {i : Instr} (hrow : opcodeMap[(opc w).toNat]? = some row)
    (hi : commandOf (opc w).toNat w = some i) :
    decode w = if w &&& row.mask = row.pattern then .ok i else .error .reservedBits := by
  simp only [decode, hrow, hi]

/-- Settles O8: a row has a command whose word carries the row's opcode, and a rejected word ends with `raiseError` as its whole
effect. -/
theorem decodingIsTotalWithNamedErrors : Obligations.DecodingIsTotalWithNamedErrors := by
  intro w
  refine ⟨decode_of_opcode_gt, ?_, ?_⟩
  · rintro n pattern mask hmem rfl
    obtain ⟨row, hrow, rfl, rfl⟩ := mem_rowEntries_iff.1 hmem
    obtain ⟨i, hi⟩ := commandOf_of_row hrow w
    have hdecode := decode_of_row hrow hi
    exact ⟨fun hmiss => hdecode.trans (if_neg hmiss), fun hmeet => ⟨i, hdecode.trans (if_pos hmeet), encode_opcode hi⟩⟩
  · intro e s he
    refine ⟨rejectWord e s, runWord_of_error he s, raiseError_sketchKept _ s, ?_⟩
    cases e <;> exact raiseError_endsInError _ s

end Sys2Proof.Machine
end

section
/-!
PROOFS. The family of 40_hash.md: the hash as a polynomial (R80), and the two commands of the hash front end (R82, R83). The
encoding of a command whose row reserves a field of the word (30_encoding.md R63) is said once for every such row.
-/

namespace Sys2Proof.Machine

/-! ### A command's encoding from its row (30_encoding.md R63, R64) -/

/-- The word with 1 in exactly the `n` bits from bit `k` upwards. -/
def fieldMask (k n : Nat) : Word64 := (BitVec.allOnes n).setWidth 64 <<< k

theorem getLsbD_fieldMask {k n j : Nat} (hj : j < 64) :
    (fieldMask k n).getLsbD j = true ↔ k ≤ j ∧ j < k + n := by
  simp only [fieldMask, BitVec.getLsbD_shiftLeft, BitVec.getLsbD_setWidth, BitVec.getLsbD_allOnes, Bool.and_eq_true,
    Bool.not_eq_true', decide_eq_true_eq, decide_eq_false_iff_not]
  omega

theorem and_eq_zero_iff (w m : Word64) :
    w &&& m = 0#64 ↔ ∀ j, j < 64 → m.getLsbD j = true → w.getLsbD j = false := by
  rw [BitVec.and_comm]
  simp [BitVec.eq_of_getLsbD_eq_iff]

theorem extractLsb'_eq_zero_iff (w : Word64) (k n : Nat) :
    w.extractLsb' k n = 0#n ↔ ∀ i, i < n → w.getLsbD (k + i) = false := by
  simp +contextual [BitVec.eq_of_getLsbD_eq_iff]

/-- The words whose field is 0 are those that have no bit in common with the field's mask. -/
theorem and_fieldMask_eq_zero_iff {k n : Nat} (hn : k + n ≤ 64) (w : Word64) :
    w &&& fieldMask k n = 0#64 ↔ w.extractLsb' k n = 0#n := by
  rw [and_eq_zero_iff, extractLsb'_eq_zero_iff]
  constructor
  · intro h i hi
    exact h (k + i) (by omega) ((getLsbD_fieldMask (by omega)).2 (by omega))
  · intro h j hj hmask
    obtain ⟨hk, hlt⟩ := (getLsbD_fieldMask hj).1 hmask
    rw [← Nat.add_sub_cancel' hk]
    exact h (j - k) (by omega)

/-- The mask of the opcode field leaves the opcode. -/
theorem and_fieldMask_opcode (w : Word64) : w &&& fieldMask 0 8 = (opc w).setWidth 64 := by
  refine BitVec.eq_of_getLsbD_eq fun j hj => ?_
  rw [Bool.eq_iff_iff, BitVec.getLsbD_and, Bool.and_eq_true, getLsbD_fieldMask hj, opc, bits, BitVec.getLsbD_setWidth,
    BitVec.getLsbD_extractLsb]
  simp [hj, Nat.lt_succ_iff, and_comm]

/-- Two masks without a common bit: a word keeps nothing but the first mask's bits exactly when it has none of the second's. -/
theorem and_or_eq_and_iff (w : Word64) {a m : Word64} (hm : m &&& a = 0#64) :
    w &&& (a ||| m) = w &&& a ↔ w &&& m = 0#64 := by
  simp only [BitVec.eq_of_getLsbD_eq_iff, BitVec.getLsbD_and, BitVec.getLsbD_or, BitVec.getLsbD_zero] at hm ⊢
  refine forall₂_congr fun j hj => ?_
  have hbit := hm j hj
  generalize w.getLsbD j = x, a.getLsbD j = y, m.getLsbD j = z at hbit ⊢
  decide +revert

/-- A command's encoding, from a row whose mask reserves the bits of `m` above the opcode. -/
theorem encodedAs_of_row {op : Byte} {row : OpcodeRow} {m : Word64} {mustBeZero : Word64 → Prop} {i : Word64 → Instr}
    (hrow : opcodeMap[op.toNat]? = some row) (hi : ∀ w, commandOf op.toNat w = some (i w))
    (hpattern : row.pattern = op.setWidth 64) (hmask : row.mask = fieldMask 0 8 ||| m)
    (hm : m &&& fieldMask 0 8 = 0#64) (hzero : ∀ w, w &&& m = 0#64 ↔ mustBeZero w) : EncodedAs op mustBeZero i := by
  rintro w rfl
  have hdecode := decode_of_row hrow (hi w)
  have hmeets : w &&& row.mask = row.pattern ↔ mustBeZero w := by
    rw [hmask, hpattern, ← hzero, ← and_or_eq_and_iff w hm, and_fieldMask_opcode]
    rfl
  exact ⟨fun h => hdecode.trans (if_pos (hmeets.2 h)), fun h => hdecode.trans (if_neg (hmeets.not.2 h))⟩

theorem hashByte_encodedAs :
    EncodedAs 0x04#8 (fun w => w.extractLsb' 16 48 = 0#48) (fun w => .hashByte (w.extractLsb' 8 8)) :=
  encodedAs_of_row (m := fieldMask 16 48) rfl (fun _ => rfl) rfl rfl rfl (and_fieldMask_eq_zero_iff (by decide))

theorem hashReset_encodedAs : EncodedAs 0x05#8 (fun w => w.extractLsb' 8 56 = 0#56) (fun _ => .hashReset) :=
  encodedAs_of_row (m := fieldMask 8 56) rfl (fun _ => rfl) rfl rfl rfl (and_fieldMask_eq_zero_iff (by decide))

/-! ### The commands that write `ACC` alone (R82, R83) -/

/-- A command that needs a construction, on a block without one. -/
theorem exec_unconfigured_endsInError {i : Instr} {s : State} (hn : needsConfigured i = true)
    (hc : s.configured = false) : ∃ t, exec i s = .next t ∧ EndsInError t 3#8 ∧ SketchKept s t :=
  ⟨_, exec_of_unconfigured hn hc, raiseError_endsInError _ s, raiseError_sketchKept _ s⟩

/-- How an accepted command ends whose effect is to write `ACC`. -/
theorem exec_of_effect_acc {i : Instr} {s : State} {acc : Word32} (ha : Accepts i s) (hresult : resultOf i s = 0#64)
    (heffect : effect i s = { s with acc := acc }) : ∃ t, exec i s = .next t ∧ EndsOk s t 0#64 ∧
      t.acc = acc ∧ SameConfig s t ∧ SameRegs s t ∧ SameHost s t := by
  have hexec : exec i s = .next (respond 0#64 { s with acc := acc }) := by rw [exec_of_accepts ha, hresult, heffect]
  exact ⟨_, hexec, ⟨rfl, rfl, rfl⟩, rfl, ⟨rfl, rfl, rfl, rfl⟩, fun _ => rfl, rfl, rfl, rfl⟩

/-- Settles O13: the row of HASH_BYTE reserves bits 16 to 63, and its effect is one accumulation step. -/
theorem hashByteStepsTheAccumulator : Obligations.HashByteStepsTheAccumulator := by
  refine ⟨hashByte_encodedAs, fun c s => ⟨fun hc => ?_, exec_unconfigured_endsInError rfl⟩⟩
  obtain ⟨t, hexec, hok, hacc, hframe⟩ := exec_of_effect_acc (i := .hashByte c) ⟨fun _ => hc, trivial⟩ rfl rfl
  exact ⟨t, hexec, hok, hacc ▸ hashStep_toNat s.acc c, hframe⟩

/-- Settles O14: the row of HASH_RESET reserves every bit above the opcode, and its effect is `ACC = 0`. -/
theorem hashResetZeroesTheAccumulator : Obligations.HashResetZeroesTheAccumulator :=
  ⟨hashReset_encodedAs, fun _ =>
    ⟨fun hc => exec_of_effect_acc ⟨fun _ => hc, trivial⟩ rfl rfl, exec_unconfigured_endsInError rfl⟩⟩

/-! ### The hash as a polynomial (R80) -/

/-- `Σ c_k * 31^(n-1-k)`, before it is reduced modulo `2^32`. -/
def hashPolynomial (element : List Byte) : Nat :=
  ∑ k ∈ Finset.range element.length, (element.getD k 0#8).toNat * 31 ^ (element.length - 1 - k)

theorem hashPolynomial_cons (c : Byte) (rest : List Byte) :
    hashPolynomial (c :: rest) = c.toNat * 31 ^ rest.length + hashPolynomial rest := by
  rw [hashPolynomial, hashPolynomial, List.length_cons, Finset.sum_range_succ', add_comm]
  simp [Nat.sub_sub, add_comm]

theorem hashStep_modEq (a : Word32) (c : Byte) : (hashStep a c).toNat ≡ a.toNat * 31 + c.toNat [MOD 2 ^ 32] := by
  rw [hashStep_toNat]
  exact Nat.mod_modEq _ _

/-- The hash continued from accumulator `a` is `a * 31^n` and the polynomial, by Horner's rule. -/
theorem hashFrom_modEq (a : Word32) (element : List Byte) :
    (hashFrom a element).toNat ≡ a.toNat * 31 ^ element.length + hashPolynomial element [MOD 2 ^ 32] := by
  induction element generalizing a with
  | nil => simpa [hashFrom, hashPolynomial] using Nat.ModEq.refl a.toNat
  | cons c rest ih =>
    calc (hashFrom (hashStep a c) rest).toNat
      _ ≡ (hashStep a c).toNat * 31 ^ rest.length + hashPolynomial rest [MOD 2 ^ 32] := ih (hashStep a c)
      _ ≡ (a.toNat * 31 + c.toNat) * 31 ^ rest.length + hashPolynomial rest [MOD 2 ^ 32] :=
        ((hashStep_modEq a c).mul_right _).add_right _
      _ = a.toNat * 31 ^ (c :: rest).length + hashPolynomial (c :: rest) := by
        rw [hashPolynomial_cons, List.length_cons]
        ring

/-- Settles O33: the hash is the one continued from 0, a word below `2^32`. -/
theorem hashIsThePolynomial : Obligations.HashIsThePolynomial := by
  refine ⟨rfl, fun element => ?_⟩
  have hhorner := hashFrom_modEq 0#32 element
  rw [BitVec.toNat_zero, zero_mul, zero_add] at hhorner
  exact (Nat.mod_eq_of_lt (elementHash element).isLt).symm.trans hhorner

end Sys2Proof.Machine
end

section
/-!
PROOFS. The family of 41_update.md: index and rank as arithmetic on the hash (R100 to R102), the two update commands (R103 to R106),
the registers after a sequence of updates (R107), and the two storage strategies side by side (R108, R129).
-/

namespace Sys2Proof.Machine

/-! ### The index (R100) -/

theorem index_eq_div (h : Word32) (B : Nat) : index h B = h.toNat / 2 ^ (32 - B) := by
  rw [index, BitVec.toNat_ushiftRight, Nat.shiftRight_eq_div_pow]

/-- Settles O36: shifting right by `32 - B` is the division whose remainder is the low `32 - B` bits. -/
theorem indexIsTheTopBits : Obligations.IndexIsTheTopBits := by
  intro h B _ hB
  refine ⟨index_lt h (by omega), ?_⟩
  rw [index_eq_div]
  exact Nat.div_add_mod' _ _

/-! ### The rank (R101) -/

/-- The remainder is the low field moved up by `B` bits. -/
theorem remainder_toNat (h : Word32) {B : Nat} (hB : B ≤ 32) :
    (remainder h B).toNat = h.toNat % 2 ^ (32 - B) * 2 ^ B := by
  have hpow : 2 ^ 32 = 2 ^ (32 - B) * 2 ^ B := by rw [← pow_add, Nat.sub_add_cancel hB]
  rw [remainder, BitVec.toNat_shiftLeft, Nat.shiftLeft_eq, hpow, Nat.mul_mod_mul_right]

theorem remainder_eq_zero_iff (h : Word32) {B : Nat} (hB : B ≤ 32) :
    remainder h B = 0#32 ↔ h.toNat % 2 ^ (32 - B) = 0 := by
  rw [← BitVec.toNat_inj, remainder_toNat h hB]
  simp

/-- The leading zeros of a non-zero field end at its highest bit that is 1. -/
theorem leadingZeros_bounds (x : Word32) {n : Nat} (hx : x.toNat % 2 ^ n ≠ 0) :
    leadingZeros x n < n ∧ 2 ^ (n - 1 - leadingZeros x n) ≤ x.toNat % 2 ^ n ∧
      x.toNat % 2 ^ n < 2 ^ (n - leadingZeros x n) := by
  induction n with
  | zero => exact absurd (Nat.mod_one _) hx
  | succ n ih =>
    have hsplit : x.toNat % 2 ^ (n + 1) = x.toNat % 2 ^ n + 2 ^ n * (x.getLsbD n).toNat := by
      rw [Nat.mod_pow_succ, ← Nat.toNat_testBit, BitVec.testBit_toNat]
    rw [leadingZeros]
    split
    · next hbit =>
      refine ⟨Nat.succ_pos n, ?_, Nat.mod_lt _ (by positivity)⟩
      simp [hsplit, hbit]
    · next hbit =>
      have hlow : x.toNat % 2 ^ (n + 1) = x.toNat % 2 ^ n := by simpa [hbit] using hsplit
      rw [hlow] at hx ⊢
      obtain ⟨hlt, hge, hle⟩ := ih hx
      refine ⟨by omega, ?_, ?_⟩
      · rwa [show n + 1 - 1 - (leadingZeros x n + 1) = n - 1 - leadingZeros x n by omega]
      · rwa [Nat.add_sub_add_right]

theorem rank_of_field_eq_zero {h : Word32} {B : Nat} (hB : B ≤ 32) (hzero : h.toNat % 2 ^ (32 - B) = 0) :
    rank h B = 32 - B :=
  if_pos ((remainder_eq_zero_iff h hB).2 hzero)

theorem rank_of_field_ne_zero {h : Word32} {B : Nat} (hB : B ≤ 32) (hne : h.toNat % 2 ^ (32 - B) ≠ 0) :
    rank h B = clz32 (remainder h B) + 1 :=
  if_neg ((remainder_eq_zero_iff h hB).not.2 hne)

theorem rank_pos (h : Word32) {B : Nat} (hB : B < 32) : 1 ≤ rank h B := by
  by_cases hzero : h.toNat % 2 ^ (32 - B) = 0
  · rw [rank_of_field_eq_zero hB.le hzero]
    omega
  · rw [rank_of_field_ne_zero hB.le hzero]
    exact Nat.succ_pos _

/-- The rank locates the highest 1 of a non-zero low field. -/
theorem field_bounds_of_rank {h : Word32} {B : Nat} (hB : B ≤ 32) (hne : h.toNat % 2 ^ (32 - B) ≠ 0) :
    2 ^ (32 - B - rank h B) ≤ h.toNat % 2 ^ (32 - B) ∧ h.toNat % 2 ^ (32 - B) < 2 ^ (32 - B - rank h B + 1) := by
  have hrank := rank_of_field_ne_zero hB hne
  have hle := rank_le h B
  have hword : (remainder h B).toNat % 2 ^ 32 = h.toNat % 2 ^ (32 - B) * 2 ^ B := by
    rw [Nat.mod_eq_of_lt (remainder h B).isLt, remainder_toNat h hB]
  have hbounds := leadingZeros_bounds (remainder h B) (n := 32) (hword ▸ Nat.mul_ne_zero hne (by positivity))
  rw [← clz32, hword] at hbounds
  obtain ⟨-, hlow, hhigh⟩ := hbounds
  constructor
  · rw [show 32 - 1 - clz32 (remainder h B) = 32 - B - rank h B + B by omega, pow_add] at hlow
    exact Nat.le_of_mul_le_mul_right hlow (by positivity)
  · rw [show 32 - clz32 (remainder h B) = 32 - B - rank h B + 1 + B by omega, pow_add] at hhigh
    exact Nat.lt_of_mul_lt_mul_right hhigh

/-- Settles O37: the remainder is the low field times `2^B`, so its leading zeros are those of the field. -/
theorem rankCountsLeadingZerosOfTheLowField : Obligations.RankCountsLeadingZerosOfTheLowField := by
  intro h B _ hB
  exact ⟨rank_pos h (by omega), rank_le h B, rank_of_field_eq_zero (by omega), field_bounds_of_rank (by omega)⟩

/-! ### The Packed clamp (R102) -/

theorem storedRank_of_le (mode : Mode) {r : Nat} (hr : r ≤ 31) : storedRank mode r = r := by
  cases mode with
  | standard => rfl
  | packed => exact Nat.min_eq_left hr

theorem storedRank_rank (mode : Mode) (h : Word32) {B : Nat} (hB : 4 ≤ B) : storedRank mode (rank h B) = rank h B :=
  storedRank_of_le mode (by have := rank_le h B; omega)

theorem storedRank_eq_ite (mode : Mode) (r : Nat) : storedRank mode r = if mode = .packed then min r 31 else r := by
  cases mode <;> rfl

/-- Settles O38: a rank is at most `32 - B`, which is below the clamp. -/
theorem packedClampNeverChangesARank : Obligations.PackedClampNeverChangesARank :=
  fun h _ mode hB _ => ⟨rfl, storedRank_rank mode h hB⟩

/-! ### One update (R103, R104) -/

/-- The selected register becomes the larger of its value and the rank (41_update.md R104). -/
theorem update_read_index (h : Word32) {s : State} (hwf : s.reg.wf = true) (hprec : 4 ≤ s.prec.toNat) :
    ((update h s).reg.read (index h s.prec.toNat)).toNat
      = max (s.reg.read (index h s.prec.toNat)).toNat (rank h s.prec.toNat) := by
  have hrank := rank_le h s.prec.toNat
  rw [update_reg, Memory.read_raise hwf, if_pos rfl, storedRank_rank _ _ hprec, maxRank_toNat _ (by omega)]

/-- The same value with the Packed clamp, which changes nothing at a legal precision (41_update.md R102). -/
theorem update_read_index_clamped (h : Word32) {s : State} (hwf : s.reg.wf = true) (hprec : 4 ≤ s.prec.toNat) :
    ((update h s).reg.read (index h s.prec.toNat)).toNat
      = max (s.reg.read (index h s.prec.toNat)).toNat
          (if s.mode = .packed then min (rank h s.prec.toNat) 31 else rank h s.prec.toNat) := by
  rw [← storedRank_eq_ite, storedRank_rank _ _ hprec, update_read_index h hwf hprec]

theorem update_read_other (h : Word32) {s : State} {j : Nat} (hj : j ≠ index h s.prec.toNat) :
    (update h s).reg.read j = s.reg.read j :=
  Memory.read_write_other _ _ hj.symm

/-- The empty element's hash selects register 0 (41_update.md R106). -/
theorem index_zero (B : Nat) : index 0#32 B = 0 := by simp [index]

/-- The empty element's rank (41_update.md R106). -/
theorem rank_zero {B : Nat} (hB : B ≤ 32) : rank 0#32 B = 32 - B := rank_of_field_eq_zero hB (by simp)

/-! ### The update commands (R105, R106) -/

theorem addHash_encodedAs :
    EncodedAs 0x03#8 (fun w => w.extractLsb' 8 24 = 0#24) (fun w => .addHash (w.extractLsb' 32 32)) :=
  encodedAs_of_row (m := fieldMask 8 24) rfl (fun _ => rfl) rfl rfl rfl (and_fieldMask_eq_zero_iff (by decide))

theorem addElem_encodedAs : EncodedAs 0x06#8 (fun w => w.extractLsb' 8 56 = 0#56) (fun _ => .addElem) :=
  encodedAs_of_row (m := fieldMask 8 56) rfl (fun _ => rfl) rfl rfl rfl (and_fieldMask_eq_zero_iff (by decide))

theorem exec_addHash {s : State} (hc : s.configured = true) (h : Word32) :
    exec (.addHash h) s = .next (respond 0#64 (update h s)) :=
  exec_of_accepts ⟨fun _ => hc, trivial⟩

theorem exec_addElem {s : State} (hc : s.configured = true) :
    exec .addElem s = .next (respond 0#64 { update s.acc s with acc := 0#32 }) :=
  exec_of_accepts ⟨fun _ => hc, trivial⟩

/-- Settles O12: the command is one update by its operand. -/
theorem addHashRaisesOneRegister : Obligations.AddHashRaisesOneRegister := by
  refine ⟨addHash_encodedAs, fun h s => ⟨fun hc hwf hprec _ => ?_, exec_unconfigured_endsInError rfl⟩⟩
  exact ⟨_, exec_addHash hc h, ⟨rfl, rfl, rfl⟩, update_read_index_clamped h hwf hprec, fun _ => update_read_other h,
    ⟨rfl, rfl, rfl, rfl⟩, rfl, ⟨rfl, rfl, rfl⟩⟩

/-- Settles O15: the command is one update by `ACC` and then `ACC = 0`; the hash 0 has index 0 and rank `32 - B`. -/
theorem addElemAddsTheAccumulatedHash : Obligations.AddElemAddsTheAccumulatedHash := by
  refine ⟨addElem_encodedAs, fun s => ⟨fun hc hwf hprec _ => ?_, exec_unconfigured_endsInError rfl⟩⟩
  refine ⟨_, exec_addElem hc, ⟨rfl, rfl, rfl⟩, rfl, update_read_index_clamped s.acc hwf hprec,
    fun _ => update_read_other s.acc, fun hacc => ?_, ⟨rfl, rfl, rfl, rfl⟩, ⟨rfl, rfl, rfl⟩⟩
  have hindex : index s.acc s.prec.toNat = 0 := by rw [hacc, index_zero]
  have hrank : rank s.acc s.prec.toNat = 32 - s.prec.toNat := by rw [hacc, rank_zero (by omega)]
  have hread := update_read_index s.acc hwf hprec
  rw [hindex, hrank] at hread
  exact hread

/-! ### The registers after a sequence of updates (R107) -/

theorem largestRank_cons (h : Word32) (hs : List Word32) (B i : Nat) :
    largestRank (h :: hs) B i
      = if index h B = i then max (rank h B) (largestRank hs B i) else largestRank hs B i := by
  by_cases hi : index h B = i <;> simp [largestRank, hi]

theorem largestRank_le_iff (hs : List Word32) (B i n : Nat) :
    largestRank hs B i ≤ n ↔ ∀ h ∈ hs, index h B = i → rank h B ≤ n := by
  induction hs with
  | nil => simp [largestRank]
  | cons h hs ih =>
    rw [largestRank_cons, List.forall_mem_cons, ← ih]
    by_cases hi : index h B = i <;> simp [hi]

/-- The largest rank over a sequence depends on the set of its hashes alone. -/
theorem largestRank_congr {hs hs' : List Word32} (hset : ∀ h, h ∈ hs' ↔ h ∈ hs) (B i : Nat) :
    largestRank hs' B i = largestRank hs B i :=
  eq_of_forall_ge_iff fun n => by simp only [largestRank_le_iff, hset]

section
variable {B : Nat} {reg : Memory}

theorem wf_raise_index (hwf : reg.wf = true) (hB : B ≤ 16) (h : Word32) (r : Nat) :
    (reg.raise (index h B) r).wf = true :=
  Memory.wf_raise hwf r <|
    calc index h B
      _ < 2 ^ B := index_lt h (by omega)
      _ ≤ 2 ^ 16 := Nat.pow_le_pow_right (by decide) hB

theorem raiseAll_cons (mode : Mode) (h : Word32) (hs : List Word32) :
    raiseAll mode B reg (h :: hs)
      = raiseAll mode B (reg.raise (index h B) (storedRank mode (rank h B))) hs := rfl

theorem raiseAll_wf (hwf : reg.wf = true) (hB : B ≤ 16) (mode : Mode) (hs : List Word32) :
    (raiseAll mode B reg hs).wf = true := by
  induction hs generalizing reg with
  | nil => exact hwf
  | cons h hs ih => exact ih (wf_raise_index hwf hB h _)

/-- Every register becomes the larger of its old value and the largest rank that selects it. -/
theorem raiseAll_read (hwf : reg.wf = true) (hlo : 4 ≤ B) (hhi : B ≤ 16) (mode : Mode) (hs : List Word32) (i : Nat) :
    ((raiseAll mode B reg hs).read i).toNat = max (reg.read i).toNat (largestRank hs B i) := by
  induction hs generalizing reg with
  | nil => simp [raiseAll, largestRank]
  | cons h hs ih =>
    have hrank := rank_le h B
    rw [raiseAll_cons, ih (wf_raise_index hwf hhi h _), Memory.read_raise hwf, storedRank_rank mode h hlo,
      largestRank_cons]
    split
    · next hi => rw [maxRank_toNat _ (by omega), hi, max_assoc]
    · rfl

/-- The array after updates depends neither on the strategy nor on the order or multiplicity of the hashes. -/
theorem raiseAll_congr (hwf : reg.wf = true) (hlo : 4 ≤ B) (hhi : B ≤ 16) (mode mode' : Mode) {hs hs' : List Word32}
    (hset : ∀ h, h ∈ hs' ↔ h ∈ hs) : raiseAll mode' B reg hs' = raiseAll mode B reg hs := by
  refine Memory.eq_of_read_eq (raiseAll_wf hwf hhi mode' hs') (raiseAll_wf hwf hhi mode hs) fun i =>
    BitVec.eq_of_toNat_eq ?_
  rw [raiseAll_read hwf hlo hhi, raiseAll_read hwf hlo hhi, largestRank_congr hset]

end

theorem appliedHashes_map_addHash (acc : Word32) (hs : List Word32) :
    appliedHashes acc (hs.map Instr.addHash) = hs := by
  induction hs with
  | nil => rfl
  | cons h hs ih => exact congrArg (h :: ·) ih

theorem appliedHashes_hashBytes_addElem (acc : Word32) (element : List Byte) :
    appliedHashes acc (element.map Instr.hashByte ++ [.addElem]) = [hashFrom acc element] := by
  induction element generalizing acc with
  | nil => rfl
  | cons c rest ih => exact ih (hashStep acc c)

theorem execAll_cons_of_next {i : Instr} {s t : State} (h : exec i s = .next t) (rest : List Instr) :
    execAll (i :: rest) s = execAll rest t := by
  simp only [execAll, h]

/-- Where ADD_HASH commands end: only the registers and the response are written. -/
theorem execAll_addHash_cons {s : State} (hc : s.configured = true) (h : Word32) (hs : List Word32) :
    execAll ((h :: hs).map Instr.addHash) s
      = .next (respond 0#64 { s with reg := raiseAll s.mode s.prec.toNat s.reg (h :: hs) }) := by
  induction hs generalizing h s with
  | nil => exact execAll_cons_of_next (exec_addHash hc h) []
  | cons h' hs ih =>
    calc execAll ((h :: h' :: hs).map Instr.addHash) s
      _ = execAll ((h' :: hs).map Instr.addHash) (respond 0#64 (update h s)) :=
        execAll_cons_of_next (exec_addHash hc h) _
      _ = _ := ih (s := respond 0#64 (update h s)) hc h'

/-- ADD_HASH sequences with the same set of operands end alike, response included. -/
theorem execAll_addHash_congr {s : State} (hs : SketchInv s) (hc : s.configured = true) {l l' : List Word32}
    (hset : ∀ h, h ∈ l' ↔ h ∈ l) : execAll (l'.map Instr.addHash) s = execAll (l.map Instr.addHash) s := by
  obtain ⟨hlo, hhi⟩ := hs.precLegal hc
  have hreg := raiseAll_congr hs.memWf hlo hhi s.mode s.mode hset
  cases l with
  | nil => rw [List.eq_nil_iff_forall_not_mem.2 fun h hmem => List.not_mem_nil ((hset h).1 hmem)]
  | cons h rest =>
    cases l' with
    | nil => exact absurd ((hset h).2 List.mem_cons_self) List.not_mem_nil
    | cons h' rest' => rw [execAll_addHash_cons hc, execAll_addHash_cons hc, hreg]

/-- The registers after commands other than CLEAR and CONFIG. -/
theorem execAll_read {s t : State} (hs : SketchInv s) (hc : s.configured = true) {hashes : List Word32}
    (hreg : t.reg = raiseAll s.mode s.prec.toNat s.reg hashes) (i : Nat) :
    (t.reg.read i).toNat = max (s.reg.read i).toNat (largestRank hashes s.prec.toNat i) := by
  obtain ⟨hlo, hhi⟩ := hs.precLegal hc
  rw [hreg, raiseAll_read hs.memWf hlo hhi]

/-- Settles O39: such commands update the registers by the hashes applied (`execAll_of_not_restarts`), and each register's
maximum depends on their set alone. -/
theorem updatesDependOnlyOnTheSetOfHashes : Obligations.UpdatesDependOnlyOnTheSetOfHashes := by
  refine ⟨appliedHashes_map_addHash, fun _ element => appliedHashes_hashBytes_addElem 0#32 element, fun s hs hc => ?_⟩
  obtain ⟨hlo, hhi⟩ := hs.precLegal hc
  refine ⟨fun cs hcs => ?_, fun hashes => ?_⟩
  · obtain ⟨t, ht, -, -, hreg⟩ := execAll_of_not_restarts cs hc hcs
    refine ⟨t, ht, fun i _ => execAll_read hs hc hreg i, fun cs' hcs' hset => ?_⟩
    obtain ⟨t', ht', -, -, hreg'⟩ := execAll_of_not_restarts cs' hc hcs'
    exact ⟨t', ht', by rw [hreg', hreg, raiseAll_congr hs.memWf hlo hhi _ _ hset]⟩
  · have hcs : ∀ c ∈ hashes.map Instr.addHash, restarts c = false := List.forall_mem_map.2 fun _ _ => rfl
    obtain ⟨t, ht, -, -, hreg⟩ := execAll_of_not_restarts _ hc hcs
    rw [appliedHashes_map_addHash] at hreg
    exact ⟨t, ht, fun i _ => execAll_read hs hc hreg i, fun hashes' hset => (execAll_addHash_congr hs hc hset).trans ht⟩

/-! ### The two storage strategies (R108, R129) -/

theorem exec_estimate {s : State} (hc : s.configured = true) :
    exec .estimate s = .next (respond (estimateWith (lnOf s.lnDepartures) s.reg s.prec.toNat) s) :=
  exec_of_accepts ⟨fun _ => hc, trivial⟩

/-- The estimate reads `PREC`, the registers in use and the implementation's logarithm (42_estimator.md R129). -/
theorem exec_estimate_pair {s s' : State} (hc : s.configured = true) (hc' : s'.configured = true)
    (hprec : s'.prec = s.prec) (hln : s'.lnDepartures = s.lnDepartures)
    (hreg : ∀ k, k < 2 ^ s.prec.toNat → s'.reg.read k = s.reg.read k) : ∃ t t',
      exec .estimate s = .next t ∧ exec .estimate s' = .next t' ∧ t'.result = t.result := by
  refine ⟨_, _, exec_estimate hc, exec_estimate hc', ?_⟩
  rw [respond_result, respond_result, hprec, hln, estimateWith_congr _ hreg]

theorem update_with_mode (h : Word32) {s : State} (hprec : 4 ≤ s.prec.toNat) (mode : Mode) :
    update h { s with mode := mode } = { update h s with mode := mode } := by
  simp only [update, storedRank_rank _ h hprec]

theorem effect_with_mode {i : Instr} (hr : restarts i = false) {s : State} (hprec : 4 ≤ s.prec.toNat) (mode : Mode) :
    effect i { s with mode := mode } = { effect i s with mode := mode } := by
  cases i with
  | config | clear => exact Bool.noConfusion hr
  | addHash h => exact update_with_mode h hprec mode
  | addElem => exact congrArg (fun t : State => { t with acc := 0#32 }) (update_with_mode s.acc hprec mode)
  | _ => rfl

theorem resultOf_with_mode {i : Instr} (hi : i ≠ .status) (s : State) (mode : Mode) :
    resultOf i { s with mode := mode } = resultOf i s := by
  cases i with
  | status => exact absurd rfl hi
  | _ => rfl

theorem accepts_with_mode {i : Instr} (hr : restarts i = false) (hi : i ≠ .memUsage) (s : State) (mode : Mode) :
    Accepts i { s with mode := mode } ↔ Accepts i s := by
  cases i with
  | config | clear => exact Bool.noConfusion hr
  | memUsage => exact absurd rfl hi
  | _ => exact Iff.rfl

/-- The commands that do not answer by `MODE` end alike in both modes. -/
theorem exec_with_mode {i : Instr} (hr : restarts i = false) (hi : i ≠ .memUsage ∧ i ≠ .status) {s : State}
    (hprec : 4 ≤ s.prec.toNat) (mode : Mode) : ∃ t,
      exec i s = .next t ∧ exec i { s with mode := mode } = .next { t with mode := mode } := by
  obtain ⟨hmemUsage, hstatus⟩ := hi
  have hiff := accepts_with_mode hr hmemUsage s mode
  by_cases ha : Accepts i s
  · refine ⟨_, exec_of_accepts ha, (exec_of_accepts (hiff.2 ha)).trans ?_⟩
    rw [effect_with_mode hr hprec, resultOf_with_mode hstatus]
    rfl
  · exact ⟨_, exec_of_refused ha, exec_of_refused (hiff.not.2 ha)⟩

theorem execAll_with_mode {cs : List Instr} (hr : ∀ c ∈ cs, restarts c = false)
    (hcs : ∀ c ∈ cs, c ≠ .memUsage ∧ c ≠ .status) {s : State} (hc : s.configured = true) (hprec : 4 ≤ s.prec.toNat)
    (mode : Mode) : ∃ t,
      execAll cs s = .next t ∧ execAll cs { s with mode := mode } = .next { t with mode := mode } := by
  induction cs generalizing s with
  | nil => exact ⟨s, rfl, rfl⟩
  | cons c rest ih =>
    rw [List.forall_mem_cons] at hr hcs
    obtain ⟨u, hu, hu'⟩ := exec_with_mode hr.1 hcs.1 hprec mode
    obtain ⟨v, hv, ⟨hconf, hsame, -, -⟩, -⟩ := exec_of_not_restarts hr.1 hc
    obtain rfl : u = v := by simpa [hu] using hv
    obtain ⟨t, ht, ht'⟩ := ih hr.2 hcs.2 (hconf.trans hc) (hsame ▸ hprec)
    exact ⟨t, (execAll_cons_of_next hu rest).trans ht, (execAll_cons_of_next hu' rest).trans ht'⟩

/-- Settles O40: the ranks written are the same in both modes, so the registers are, and the estimate reads nothing else; of the
other answers only those of MEM_USAGE and STATUS depend on `MODE`. -/
theorem storageStrategiesAgree : Obligations.StorageStrategiesAgree := by
  refine ⟨fun _ _ => exec_estimate_pair, fun cs s hs hc hcs => ?_⟩
  obtain ⟨hlo, hhi⟩ := hs.precLegal hc
  obtain ⟨t, ht, ⟨tconf, tprec, -, -⟩, ⟨-, tln, -⟩, treg⟩ :=
    execAll_of_not_restarts cs (s := { s with mode := .standard }) hc hcs
  obtain ⟨t', ht', ⟨tconf', tprec', -, -⟩, ⟨-, tln', -⟩, treg'⟩ :=
    execAll_of_not_restarts cs (s := { s with mode := .packed }) hc hcs
  have hreg : t'.reg = t.reg := by
    rw [treg', treg]
    exact raiseAll_congr hs.memWf hlo hhi _ _ fun _ => Iff.rfl
  obtain ⟨u, u', hu, hu', hresult⟩ := exec_estimate_pair (tconf.trans hc) (tconf'.trans hc)
    (tprec'.trans tprec.symm) (tln'.trans tln.symm) fun k _ => by rw [hreg]
  refine ⟨t, t', u, u', ht, ht', hreg, hu, hu', hresult, fun hanswers => ?_⟩
  obtain ⟨v, hv, hv'⟩ := execAll_with_mode hcs hanswers (s := { s with mode := .standard }) hc hlo .packed
  obtain rfl : t = v := by simpa [ht] using hv
  simpa [ht'] using hv'

end Sys2Proof.Machine
end

section
/-!
PROOFS. Binary64 encodings and their values (00_scope.md R8): an encoding as exponent in force and significand, its value as a
number of units in the last place, and the values that have an encoding.
-/

namespace Sys2Proof.Machine

/-! ### The fields of an encoding as arithmetic on its number -/

theorem expField_eq (w : Word64) : expField w = w.toNat / 2 ^ 52 % 2 ^ 11 := by
  simp [expField, Nat.shiftRight_eq_div_pow]

theorem fracField_eq (w : Word64) : fracField w = w.toNat % 2 ^ 52 := by
  simp [fracField]

theorem sign_eq_false_iff (w : Word64) : w.getLsbD 63 = false ↔ w.toNat < 2 ^ 63 := by
  rw [← BitVec.msb_eq_getLsbD_last, BitVec.msb_eq_decide, decide_eq_false_iff_not, Nat.not_le]

/-- The finite non-negative encodings are those below infinity. -/
theorem finite64_iff (w : Word64) : Finite64 w ↔ w.toNat < 2047 * 2 ^ 52 := by
  rw [Finite64, sign_eq_false_iff, expField_eq]
  omega

theorem effExp_pos (w : Word64) : 1 ≤ effExp w := le_max_right _ _

theorem significand_lt (w : Word64) : significand w < 2 ^ 53 := by
  rw [significand, fracField_eq]
  split <;> omega

/-- Only the lowest binade has significands without the hidden bit. -/
theorem le_significand_of_effExp {w : Word64} (h : effExp w ≠ 1) : 2 ^ 52 ≤ significand w := by
  rw [effExp] at h
  rw [significand, if_neg (by omega)]
  omega

theorem significand_zero : significand 0#64 = 0 := rfl

/-! ### The encoding of an exponent and a significand -/

/-- The encoding of significand `k` at biased exponent `e`: a significand of `2^53` carries into the exponent field. -/
def encode64 (e k : Nat) : Word64 := BitVec.ofNat 64 ((e - 1) <<< 52 + k)

/-- The exponents and significands of the finite encodings, the carry included. -/
structure Encodable64 (e k : Nat) : Prop where
  expPos : 1 ≤ e
  significandLe : k ≤ 2 ^ 53
  hidden : e = 1 ∨ 2 ^ 52 ≤ k
  finite : (e - 1) * 2 ^ 52 + k < 2047 * 2 ^ 52

theorem encode64_toNat {e k : Nat} (h : Encodable64 e k) : (encode64 e k).toNat = (e - 1) * 2 ^ 52 + k := by
  have := h.finite
  rw [encode64, BitVec.toNat_ofNat, Nat.shiftLeft_eq, Nat.mod_eq_of_lt (by omega)]

theorem encode64_finite {e k : Nat} (h : Encodable64 e k) : Finite64 (encode64 e k) := by
  rw [finite64_iff, encode64_toNat h]
  exact h.finite

theorem carry_eq {e : Nat} (he : 1 ≤ e) : (e - 1) * 2 ^ 52 + 2 ^ 53 = (e + 1 - 1) * 2 ^ 52 + 2 ^ 52 := by omega

theorem encode64_carry {e : Nat} (he : 1 ≤ e) : encode64 e (2 ^ 53) = encode64 (e + 1) (2 ^ 52) := by
  rw [encode64, encode64, Nat.shiftLeft_eq, Nat.shiftLeft_eq, carry_eq he]

theorem Encodable64.carry {e : Nat} (h : Encodable64 e (2 ^ 53)) : Encodable64 (e + 1) (2 ^ 52) :=
  ⟨e.succ_pos, by omega, .inr le_rfl, carry_eq h.expPos ▸ h.finite⟩

/-- The exponent and the significand are read back, but for a carry. -/
theorem encode64_fields {e k : Nat} (h : Encodable64 e k) (hk : k < 2 ^ 53) :
    effExp (encode64 e k) = e ∧ significand (encode64 e k) = k := by
  obtain ⟨hpos, -, hhidden, hfinite⟩ := h
  have hexp := expField_eq (encode64 e k)
  have hfrac := fracField_eq (encode64 e k)
  rw [encode64_toNat ⟨hpos, hk.le, hhidden, hfinite⟩] at hexp hfrac
  rw [effExp, significand]
  split <;> omega

/-- Every finite encoding is one of an exponent and a significand. -/
theorem encode64_of_fields {w : Word64} (hw : Finite64 w) : encode64 (effExp w) (significand w) = w := by
  have hlt := (finite64_iff w).1 hw
  refine BitVec.eq_of_toNat_eq ?_
  have hexp := expField_eq w
  have hfrac := fracField_eq w
  rw [encode64, BitVec.toNat_ofNat, Nat.shiftLeft_eq, effExp, significand]
  split <;> omega

/-! ### Values -/

/-- The weight of one unit in the last place at biased exponent `e`. -/
def unit64 (e : Nat) : ℚ := 2 ^ e / 2 ^ 1075

theorem unit64_pos (e : Nat) : 0 < unit64 e := by
  unfold unit64
  positivity

theorem unit64_add (e j : Nat) : unit64 (e + j) = 2 ^ j * unit64 e := by
  rw [unit64, unit64, pow_add, mul_comm, mul_div_assoc]

theorem unit64_succ (e : Nat) : unit64 (e + 1) = 2 * unit64 e := by rw [unit64_add, pow_one]

theorem unit64_mono {e e' : Nat} (h : e ≤ e') : unit64 e ≤ unit64 e' := by
  obtain ⟨j, rfl⟩ := Nat.exists_eq_add_of_le h
  rw [unit64_add]
  exact le_mul_of_one_le_left (unit64_pos e).le (one_le_pow₀ one_le_two)

/-- The two shifts of `num64` and `den64`, of which one is by 0, together scale by `2^(e-c)`. -/
theorem two_pow_sub_div (e c : Nat) : (2 : ℚ) ^ (e - c) / 2 ^ (c - e) = 2 ^ e / 2 ^ c := by
  have hsum : e - c + c = e + (c - e) := by rw [Nat.sub_add_eq_max, add_comm e, Nat.sub_add_eq_max, max_comm]
  rw [div_eq_div_iff (by positivity) (by positivity), ← pow_add, ← pow_add, hsum]

theorem num64_eq (w : Word64) : num64 w = significand w * 2 ^ (effExp w - 1075) := Nat.shiftLeft_eq _ _

theorem den64_eq (w : Word64) : den64 w = 2 ^ (1075 - effExp w) := Nat.one_shiftLeft _

/-- The value as significand times unit of the last place. -/
theorem value64_eq (w : Word64) : value64 w = significand w * unit64 (effExp w) := by
  rw [value64, num64_eq, den64_eq, Nat.cast_mul, Nat.cast_pow, Nat.cast_pow, Nat.cast_ofNat, unit64, ← two_pow_sub_div,
    mul_div_assoc]

theorem value64_encode64 {e k : Nat} (h : Encodable64 e k) : value64 (encode64 e k) = k * unit64 e := by
  obtain hk | rfl := h.significandLe.lt_or_eq
  · obtain ⟨hexp, hsig⟩ := encode64_fields h hk
    rw [value64_eq, hexp, hsig]
  · obtain ⟨hexp, hsig⟩ := encode64_fields h.carry (by omega)
    rw [encode64_carry h.expPos, value64_eq, hexp, hsig, unit64_add]
    push_cast
    ring

/-- The significand keeps its parity when it carries. -/
theorem significand_encode64_even {e k : Nat} (h : Encodable64 e k) (hk : k % 2 = 0) :
    significand (encode64 e k) % 2 = 0 := by
  obtain hlt | rfl := h.significandLe.lt_or_eq
  · rw [(encode64_fields h hlt).2, hk]
  · rw [encode64_carry h.expPos, (encode64_fields h.carry (by omega)).2]
    rfl

/-- An encoding in the same or a higher binade has a value that is a whole number of units at `e`. -/
theorem value64_eq_mul_unit {v : Word64} {e : Nat} (h : e ≤ effExp v) :
    value64 v = (significand v * 2 ^ (effExp v - e) : Nat) * unit64 e := by
  obtain ⟨j, hj⟩ := Nat.exists_eq_add_of_le h
  rw [value64_eq, hj, unit64_add, Nat.add_sub_cancel_left, Nat.cast_mul, Nat.cast_pow, Nat.cast_ofNat, mul_assoc]

theorem value64_nonneg (w : Word64) : 0 ≤ value64 w := by
  unfold value64
  positivity

/-! ### The size of a value and its exponent -/

/-- An encoding in a lower binade has a smaller value than the least significand with a hidden bit at `e`. -/
theorem value64_lt_of_effExp_lt {v : Word64} {e : Nat} (h : effExp v < e) : value64 v < 2 ^ 52 * unit64 e := by
  have hv : (significand v : ℚ) < 2 ^ 53 := mod_cast significand_lt v
  have hunit := unit64_mono (Nat.succ_le_of_lt h)
  rw [unit64_succ] at hunit
  calc value64 v = significand v * unit64 (effExp v) := value64_eq v
    _ < 2 ^ 53 * unit64 (effExp v) := mul_lt_mul_of_pos_right hv (unit64_pos _)
    _ = 2 ^ 52 * (2 * unit64 (effExp v)) := by ring
    _ ≤ 2 ^ 52 * unit64 e := by gcongr

/-- A significand with its hidden bit is at least `2^52` units. -/
theorem le_value64 {w : Word64} (hsig : 2 ^ 52 ≤ significand w) {e : Nat} (he : e ≤ effExp w) :
    2 ^ 52 * unit64 e ≤ value64 w := by
  have hsig' : (2 : ℚ) ^ 52 ≤ significand w := mod_cast hsig
  rw [value64_eq]
  exact mul_le_mul hsig' (unit64_mono he) (unit64_pos e).le (Nat.cast_nonneg _)

theorem effExp_lt_of_value64_lt {w : Word64} {e : Nat} (he : 2 ≤ e) (h : value64 w < 2 ^ 52 * unit64 e) :
    effExp w < e := by
  by_contra! hge
  exact (le_value64 (le_significand_of_effExp (by omega)) hge).not_gt h

theorem effExp_le_of_value64_le {v w : Word64} (h : value64 v ≤ value64 w) : effExp v ≤ effExp w := by
  by_contra! hlt
  exact lt_irrefl _
    (effExp_lt_of_value64_lt (by have := effExp_pos w; omega) (h.trans_lt (value64_lt_of_effExp_lt hlt)))

theorem unit64_1075 : unit64 1075 = 1 := div_self (by positivity)

/-- The bound of `normalOrZero64_of_le` is far below every value that the estimator forms from integers. -/
theorem normal_threshold_le : 2 ^ 52 * unit64 2 ≤ 1 / 2 ^ 128 := by
  have hscale : unit64 (2 + 180) = 2 ^ 180 * unit64 2 := unit64_add 2 180
  have hone : unit64 (2 + 180) ≤ 1 := unit64_1075 ▸ unit64_mono (by norm_num)
  rw [le_div_iff₀ (by positivity)]
  linarith

/-- A finite value from `2^-1021` on is normal. -/
theorem normalOrZero64_of_le {w : Word64} (hw : Finite64 w) (h : 2 ^ 52 * unit64 2 ≤ value64 w) : NormalOrZero64 w := by
  refine ⟨hw, .inr ?_⟩
  by_contra! hlt
  have heff : effExp w < 2 := by
    rw [effExp]
    omega
  exact h.not_gt (value64_lt_of_effExp_lt heff)

theorem le_value64_of_normal {w : Word64} (h : 1 ≤ expField w) : 2 ^ 52 * unit64 1 ≤ value64 w := by
  refine le_value64 ?_ (effExp_pos w)
  rw [significand, if_neg (by omega)]
  omega

/-- Finite encodings of one value are the same encoding. -/
theorem value64_injective {v w : Word64} (hv : Finite64 v) (hw : Finite64 w) (h : value64 v = value64 w) : v = w := by
  have hexp : effExp v = effExp w := le_antisymm (effExp_le_of_value64_le h.le) (effExp_le_of_value64_le h.ge)
  rw [value64_eq, value64_eq, hexp] at h
  have hsig : significand v = significand w := by exact_mod_cast mul_right_cancel₀ (unit64_pos _).ne' h
  rw [← encode64_of_fields hv, ← encode64_of_fields hw, hexp, hsig]

/-! ### The values that have an encoding -/

/-- Some finite encoding has the value `x`. -/
def Representable64 (x : ℚ) : Prop := ∃ v, Finite64 v ∧ value64 v = x

/-- A product of at most 53 bits and a unit has an encoding: the significand is shifted up to the hidden bit. -/
theorem representable64_mul_unit {e k : Nat} (he : 1 ≤ e) (he' : e ≤ 2045) (hk : k ≤ 2 ^ 53) :
    Representable64 (k * unit64 e) := by
  induction e, he using Nat.le_induction generalizing k with
  | base =>
    have h : Encodable64 1 k := ⟨le_rfl, hk, .inl rfl, by omega⟩
    exact ⟨_, encode64_finite h, value64_encode64 h⟩
  | succ e he ih =>
    obtain hlt | hge := Nat.lt_or_ge k (2 ^ 52)
    · have hx := ih (k := 2 * k) (by omega) (by omega)
      rwa [unit64_succ, mul_left_comm, ← mul_assoc, ← Nat.cast_ofNat (n := 2), ← Nat.cast_mul]
    · have h : Encodable64 (e + 1) k := ⟨by omega, hk, .inr hge, by omega⟩
      exact ⟨_, encode64_finite h, value64_encode64 h⟩

/-- A significand of at most 53 bits times a power of two far from the ends of the exponent range. -/
theorem representable64_scaled {k i j : Nat} (hk : k ≤ 2 ^ 53) (hi : i ≤ 900) (hj : j ≤ 1074) :
    Representable64 (k * 2 ^ i / 2 ^ j) := by
  have hx := representable64_mul_unit (e := 1075 - j + i) (by omega) (by omega) hk
  have hunit : unit64 (1075 - j) = 1 / 2 ^ j := by
    rw [unit64, div_eq_div_iff (by positivity) (by positivity), one_mul, ← pow_add,
      Nat.sub_add_cancel (by omega)]
  rwa [unit64_add, hunit, ← mul_assoc, mul_one_div] at hx

theorem representable64_div {k j : Nat} (hk : k ≤ 2 ^ 53) (hj : j ≤ 1074) : Representable64 (k / 2 ^ j) := by
  simpa using representable64_scaled (i := 0) hk (by omega) hj

theorem value64_zero : value64 0#64 = 0 := by
  rw [value64_eq, significand_zero, Nat.cast_zero, zero_mul]

end Sys2Proof.Machine
end

section
/-!
PROOFS. `rne64` is rounding to the nearest encoding, ties to even (00_scope.md R8).
-/

namespace Sys2Proof.Machine

/-! ### Rounding a fraction to an integer -/

/-- The rounded integer is within one half of the fraction, and even where it is exactly one half away. -/
theorem roundHalfEven_dist (n : Nat) {d : Nat} (hd : 0 < d) :
    |(roundHalfEven n d : ℝ) - n / d| ≤ 1 / 2 ∧
    (|(roundHalfEven n d : ℝ) - n / d| = 1 / 2 → roundHalfEven n d % 2 = 0) := by
  have hd' : (0 : ℝ) < d := Nat.cast_pos.2 hd
  have hquot : (n : ℝ) / d = (n / d : Nat) + (n % d : Nat) / d := by
    rw [div_eq_iff hd'.ne', add_mul, div_mul_cancel₀ _ hd'.ne']
    exact_mod_cast (Nat.div_add_mod' n d).symm
  have hfrac : (0 : ℝ) ≤ (n % d : Nat) / d := by positivity
  rw [hquot, roundHalfEven]
  split
  · next hlow =>
    have hhalf : ((n % d : Nat) : ℝ) / d < 1 / 2 := by
      rw [div_lt_div_iff₀ hd' two_pos]
      exact_mod_cast (by omega : n % d * 2 < 1 * d)
    rw [sub_add_cancel_left, abs_neg, abs_of_nonneg hfrac]
    exact ⟨hhalf.le, fun htie => absurd htie hhalf.ne⟩
  · split
    · next hhigh =>
      have hhalf : 1 / 2 < ((n % d : Nat) : ℝ) / d := by
        rw [div_lt_div_iff₀ two_pos hd']
        exact_mod_cast (by omega : 1 * d < n % d * 2)
      have hone : ((n % d : Nat) : ℝ) / d ≤ 1 := (div_le_one hd').2 (mod_cast (Nat.mod_lt n hd).le)
      rw [Nat.cast_add, Nat.cast_one, add_sub_add_left_eq_sub, abs_of_nonneg (by linarith)]
      exact ⟨by linarith, fun htie => by linarith⟩
    · have hhalf : ((n % d : Nat) : ℝ) / d = 1 / 2 := by
        rw [div_eq_div_iff hd'.ne' two_ne_zero]
        exact_mod_cast (by omega : n % d * 2 = 1 * d)
      refine ⟨?_, fun _ => by omega⟩
      rw [hhalf, Nat.cast_add, add_sub_add_left_eq_sub]
      obtain heven | hodd := Nat.mod_two_eq_zero_or_one (n / d)
      · rw [heven]
        norm_num
      · rw [hodd]
        norm_num

theorem roundHalfEven_le {n d m : Nat} (hd : 0 < d) (h : n ≤ m * d) : roundHalfEven n d ≤ m := by
  have hle : (n : ℝ) / d ≤ m := (div_le_iff₀ (Nat.cast_pos.2 hd)).2 (mod_cast h)
  have hlt : (roundHalfEven n d : ℝ) < m + 1 := by
    linarith [(abs_le.1 (roundHalfEven_dist n hd).1).2]
  exact Nat.lt_succ_iff.1 (mod_cast hlt)

theorem le_roundHalfEven {n d m : Nat} (hd : 0 < d) (h : m * d ≤ n) : m ≤ roundHalfEven n d := by
  have hle : (m : ℝ) ≤ n / d := (le_div_iff₀ (Nat.cast_pos.2 hd)).2 (mod_cast h)
  have hlt : (m : ℝ) < roundHalfEven n d + 1 := by
    linarith [(abs_le.1 (roundHalfEven_dist n hd).1).1]
  exact Nat.lt_succ_iff.1 (mod_cast hlt)

/-- No integer is nearer than one within one half, and another is as near only in a tie. -/
theorem nearest_of_dist_le_half {k : Nat} {y : ℝ} (h : |(k : ℝ) - y| ≤ 1 / 2) (j : Nat) :
    |(k : ℝ) - y| ≤ |(j : ℝ) - y| ∧ (j ≠ k → |(k : ℝ) - y| = |(j : ℝ) - y| → |(k : ℝ) - y| = 1 / 2) := by
  obtain rfl | hne := eq_or_ne j k
  · exact ⟨le_rfl, fun hne => absurd rfl hne⟩
  · have hone : (1 : ℝ) ≤ |(j : ℝ) - k| := by
      have : (1 : ℤ) ≤ |(j : ℤ) - k| := Int.one_le_abs (by omega)
      exact_mod_cast this
    have htri := abs_sub_le (j : ℝ) y k
    rw [abs_sub_comm y] at htri
    exact ⟨by linarith, fun _ heq => by linarith⟩

/-! ### The binade of a fraction -/

theorem binade_pos (n d : Nat) : 1 ≤ binade n d := le_max_left _ _

/-- The fraction lies below the upper end of its binade. -/
theorem lt_binade (n : Nat) {d : Nat} (hd : d ≠ 0) : n * 2 ^ 1022 < d * 2 ^ binade n d := by
  have hnlt : n < 2 ^ (n.log2 + 1) := Nat.lt_log2_self
  have hdle : 2 ^ d.log2 ≤ d := Nat.log2_self_le hd
  by_cases hcase : d <<< n.log2 ≤ n <<< d.log2
  · have hexp : 1023 + n.log2 ≤ d.log2 + binade n d := by rw [binade, if_pos hcase]; omega
    calc n * 2 ^ 1022 < 2 ^ (n.log2 + 1) * 2 ^ 1022 := Nat.mul_lt_mul_of_pos_right hnlt (by positivity)
      _ = 2 ^ (1023 + n.log2) := by rw [← pow_add]; congr 1; omega
      _ ≤ 2 ^ (d.log2 + binade n d) := Nat.pow_le_pow_right two_pos hexp
      _ = 2 ^ d.log2 * 2 ^ binade n d := pow_add _ _ _
      _ ≤ d * 2 ^ binade n d := Nat.mul_le_mul_right _ hdle
  · have hexp : 1022 + n.log2 ≤ binade n d + d.log2 := by rw [binade, if_neg hcase]; omega
    rw [Nat.shiftLeft_eq, Nat.shiftLeft_eq, Nat.not_le] at hcase
    refine Nat.lt_of_mul_lt_mul_right (a := 2 ^ d.log2) ?_
    calc n * 2 ^ 1022 * 2 ^ d.log2 = n * 2 ^ d.log2 * 2 ^ 1022 := Nat.mul_right_comm _ _ _
      _ < d * 2 ^ n.log2 * 2 ^ 1022 := Nat.mul_lt_mul_of_pos_right hcase (by positivity)
      _ = d * 2 ^ (1022 + n.log2) := by rw [mul_assoc, ← pow_add, add_comm]
      _ ≤ d * 2 ^ (binade n d + d.log2) := Nat.mul_le_mul_left _ (Nat.pow_le_pow_right two_pos hexp)
      _ = d * 2 ^ binade n d * 2 ^ d.log2 := by rw [pow_add, mul_assoc]

/-- The fraction is at least the lower end of its binade, but for those below the normal range. -/
theorem binade_le {n d : Nat} (hn : n ≠ 0) (h : binade n d ≠ 1) : d * 2 ^ binade n d ≤ n * 2 ^ 1023 := by
  have hnle : 2 ^ n.log2 ≤ n := Nat.log2_self_le hn
  have hdlt : d < 2 ^ (d.log2 + 1) := Nat.lt_log2_self
  by_cases hcase : d <<< n.log2 ≤ n <<< d.log2
  · have hexp : binade n d + d.log2 = n.log2 + 1023 := by rw [binade, if_pos hcase] at h ⊢; omega
    rw [Nat.shiftLeft_eq, Nat.shiftLeft_eq] at hcase
    refine Nat.le_of_mul_le_mul_right (c := 2 ^ d.log2) ?_ (by positivity)
    calc d * 2 ^ binade n d * 2 ^ d.log2 = d * 2 ^ n.log2 * 2 ^ 1023 := by
          rw [mul_assoc, ← pow_add, hexp, pow_add, mul_assoc]
      _ ≤ n * 2 ^ d.log2 * 2 ^ 1023 := Nat.mul_le_mul_right _ hcase
      _ = n * 2 ^ 1023 * 2 ^ d.log2 := Nat.mul_right_comm _ _ _
  · have hexp : d.log2 + 1 + binade n d = n.log2 + 1023 := by rw [binade, if_neg hcase] at h ⊢; omega
    calc d * 2 ^ binade n d ≤ 2 ^ (d.log2 + 1) * 2 ^ binade n d := Nat.mul_le_mul_right _ hdlt.le
      _ = 2 ^ n.log2 * 2 ^ 1023 := by rw [← pow_add, hexp, pow_add]
      _ ≤ n * 2 ^ 1023 := Nat.mul_le_mul_right _ hnle

/-! ### Rounding to an encoding -/

/-- A finite encoding is not cut off at infinity. -/
theorem Encodable64.min_eq {e k : Nat} (h : Encodable64 e k) :
    BitVec.ofNat 64 (min inf64 ((e - 1) <<< 52 + k)) = encode64 e k := by
  have hle : (e - 1) <<< 52 + k ≤ inf64 := by
    rw [Nat.shiftLeft_eq]
    exact h.finite.le
  rw [min_eq_right hle, encode64]

/-- An encoding whose significand is the fraction rounded to a whole number of units of its binade is the nearest one. -/
theorem isRne64_encode64 {e k : Nat} (h : Encodable64 e k) {y : ℝ} (hdist : |(k : ℝ) - y| ≤ 1 / 2)
    (htie : |(k : ℝ) - y| = 1 / 2 → k % 2 = 0) (hlow : e = 1 ∨ 2 ^ 52 ≤ y) :
    IsRne64 (encode64 e k) (y * (unit64 e : ℚ)) := by
  have hunit : (0 : ℝ) < (unit64 e : ℚ) := Rat.cast_pos.2 (unit64_pos e)
  have hscale : ∀ j : Nat, |(j : ℝ) * (unit64 e : ℚ) - y * (unit64 e : ℚ)| = |(j : ℝ) - y| * (unit64 e : ℚ) := by
    intro j
    rw [← sub_mul, abs_mul, abs_of_pos hunit]
  have hvalue : ((value64 (encode64 e k) : ℚ) : ℝ) = k * (unit64 e : ℚ) := by
    rw [value64_encode64 h, Rat.cast_mul, Rat.cast_natCast]
  refine ⟨encode64_finite h, fun v hv => ?_⟩
  rw [hvalue, hscale]
  obtain hexp | hexp := Nat.lt_or_ge (effExp v) e
  · have hy : 2 ^ 52 ≤ y := hlow.resolve_left (by have := effExp_pos v; omega)
    have hlt : ((value64 v : ℚ) : ℝ) < 2 ^ 52 * (unit64 e : ℚ) := mod_cast value64_lt_of_effExp_lt hexp
    have hnear := (nearest_of_dist_le_half hdist (2 ^ 52)).1
    rw [Nat.cast_pow, Nat.cast_ofNat, abs_sub_comm (2 ^ 52) y, abs_of_nonneg (sub_nonneg.2 hy)] at hnear
    have hfar : |(k : ℝ) - y| * (unit64 e : ℚ) < |((value64 v : ℚ) : ℝ) - y * (unit64 e : ℚ)| := by
      rw [abs_sub_comm _ (y * _)]
      refine lt_of_lt_of_le ?_ (le_abs_self _)
      calc |(k : ℝ) - y| * (unit64 e : ℚ) ≤ (y - 2 ^ 52) * (unit64 e : ℚ) := by gcongr
        _ = y * (unit64 e : ℚ) - 2 ^ 52 * (unit64 e : ℚ) := sub_mul _ _ _
        _ < y * (unit64 e : ℚ) - (value64 v : ℚ) := by gcongr
    exact ⟨hfar.le, fun _ heq => absurd heq hfar.ne⟩
  · have hv' := value64_eq_mul_unit hexp
    have hvalue' : ((value64 v : ℚ) : ℝ) = (significand v * 2 ^ (effExp v - e) : Nat) * (unit64 e : ℚ) := by
      rw [hv', Rat.cast_mul, Rat.cast_natCast]
    obtain ⟨hle, heqhalf⟩ := nearest_of_dist_le_half hdist (significand v * 2 ^ (effExp v - e))
    rw [hvalue', hscale]
    refine ⟨mul_le_mul_of_nonneg_right hle hunit.le, fun hne heq => ?_⟩
    have hjk : significand v * 2 ^ (effExp v - e) ≠ k := fun hjk =>
      hne (value64_injective hv (encode64_finite h) (by rw [hv', hjk, value64_encode64 h]))
    exact significand_encode64_even h (htie (heqhalf hjk (mul_right_cancel₀ hunit.ne' heq)))

/-- Above the lowest binade the fraction has at least `2^52` units. -/
theorem le_of_binade_ne_one {n d : Nat} (hn : n ≠ 0) (h : binade n d ≠ 1) :
    2 ^ 52 * (d * 2 ^ binade n d) ≤ n * 2 ^ 1075 :=
  calc 2 ^ 52 * (d * 2 ^ binade n d) ≤ 2 ^ 52 * (n * 2 ^ 1023) := Nat.mul_le_mul_left _ (binade_le hn h)
    _ = n * 2 ^ 1075 := by rw [mul_left_comm, ← pow_add]

/-- An encoding whose value is `x` is the nearest to `x`. -/
theorem isRne64_of_value_eq {w : Word64} (hw : Finite64 w) {x : ℝ} (h : ((value64 w : ℚ) : ℝ) = x) : IsRne64 w x := by
  subst h
  refine ⟨hw, fun v hv => ?_⟩
  rw [sub_self, abs_zero]
  refine ⟨abs_nonneg _, fun hne heq => absurd (value64_injective hv hw ?_) hne⟩
  exact_mod_cast sub_eq_zero.1 (abs_eq_zero.1 heq.symm)

theorem exponent_le_of_mul_le {d e e' : Nat} (hd : d ≠ 0) (h : d * 2 ^ e ≤ d * 2 ^ e') : e ≤ e' :=
  (Nat.pow_le_pow_iff_right one_lt_two).1 (Nat.le_of_mul_le_mul_left h (Nat.pos_of_ne_zero hd))

/-- `Nat.shiftLeft_eq` with the power of the monoid `Nat`, as it stands in the statements here. -/
theorem shiftLeft_eq_mul (n j : Nat) : n <<< j = n * 2 ^ j := Nat.shiftLeft_eq n j

/-- `rne64` in range: the exponent of the fraction's binade and the fraction's whole number of units, rounded. -/
theorem rne64_eq_encode64 {n d : Nat} (hn : n ≠ 0) (hd : d ≠ 0) (hrange : n ≤ d * 2 ^ 1023) :
    Encodable64 (binade n d) (roundHalfEven (n * 2 ^ 1075) (d * 2 ^ binade n d)) ∧
    rne64 n d = encode64 (binade n d) (roundHalfEven (n * 2 ^ 1075) (d * 2 ^ binade n d)) := by
  have hden : 0 < d * 2 ^ binade n d := by positivity
  have hpos := binade_pos n d
  have hupper : roundHalfEven (n * 2 ^ 1075) (d * 2 ^ binade n d) ≤ 2 ^ 53 := by
    refine roundHalfEven_le hden ?_
    calc n * 2 ^ 1075 = 2 ^ 53 * (n * 2 ^ 1022) := by rw [mul_left_comm, ← pow_add]
      _ ≤ 2 ^ 53 * (d * 2 ^ binade n d) := Nat.mul_le_mul_left _ (lt_binade n hd).le
  have hlower : binade n d = 1 ∨ 2 ^ 52 ≤ roundHalfEven (n * 2 ^ 1075) (d * 2 ^ binade n d) :=
    or_iff_not_imp_left.2 fun h => le_roundHalfEven hden (le_of_binade_ne_one hn h)
  have hfinite : (binade n d - 1) * 2 ^ 52 + roundHalfEven (n * 2 ^ 1075) (d * 2 ^ binade n d) < 2047 * 2 ^ 52 := by
    obtain hlt | hge := Nat.lt_or_ge (binade n d) 2046
    · omega
    · have hexp : d * 2 ^ binade n d ≤ d * 2 ^ (1023 + 1023) :=
        calc d * 2 ^ binade n d ≤ n * 2 ^ 1023 := binade_le hn (by omega)
          _ ≤ d * 2 ^ 1023 * 2 ^ 1023 := Nat.mul_le_mul_right _ hrange
          _ = d * 2 ^ (1023 + 1023) := by rw [mul_assoc, ← pow_add]
      have hle := exponent_le_of_mul_le hd hexp
      have hmax : binade n d = 2046 := le_antisymm hle hge
      have hpower : roundHalfEven (n * 2 ^ 1075) (d * 2 ^ binade n d) ≤ 2 ^ 52 := by
        refine roundHalfEven_le hden ?_
        calc n * 2 ^ 1075 ≤ d * 2 ^ 1023 * 2 ^ 1075 := Nat.mul_le_mul_right _ hrange
          _ = 2 ^ 52 * (d * 2 ^ binade n d) := by
            rw [hmax, mul_assoc, ← pow_add, mul_left_comm, ← pow_add]
      omega
  have henc : Encodable64 _ _ := ⟨hpos, hupper, hlower, hfinite⟩
  refine ⟨henc, ?_⟩
  rw [rne64, if_neg hn, shiftLeft_eq_mul n, shiftLeft_eq_mul d, henc.min_eq]

/-- `rne64` is the nearest encoding, ties to even, for every fraction up to `2^1023` (00_scope.md R8). -/
theorem rne64_isRne64 {n d : Nat} (hd : d ≠ 0) (hrange : n ≤ d * 2 ^ 1023) : IsRne64 (rne64 n d) ((n : ℝ) / d) := by
  obtain rfl | hn := eq_or_ne n 0
  · rw [rne64_zero, Nat.cast_zero, zero_div]
    exact isRne64_of_value_eq ⟨by decide, by decide⟩ (by rw [value64_zero, Rat.cast_zero])
  · obtain ⟨henc, heq⟩ := rne64_eq_encode64 hn hd hrange
    have hden : 0 < d * 2 ^ binade n d := by positivity
    obtain ⟨hdist, htie⟩ := roundHalfEven_dist (n * 2 ^ 1075) hden
    have hlow : binade n d = 1 ∨ (2 : ℝ) ^ 52 ≤ (n * 2 ^ 1075 : Nat) / (d * 2 ^ binade n d : Nat) := by
      refine or_iff_not_imp_left.2 fun h => (le_div_iff₀ (Nat.cast_pos.2 hden)).2 ?_
      exact_mod_cast le_of_binade_ne_one hn h
    have hscale : (n : ℝ) / d = (n * 2 ^ 1075 : Nat) / (d * 2 ^ binade n d : Nat) * (unit64 (binade n d) : ℚ) := by
      rw [unit64, Nat.cast_mul, Nat.cast_mul, Nat.cast_pow, Nat.cast_pow, Nat.cast_ofNat, Rat.cast_div, Rat.cast_pow,
        Rat.cast_pow, Rat.cast_ofNat, div_mul_div_comm, mul_assoc, mul_assoc, mul_comm (2 ^ 1075 : ℝ),
        mul_div_mul_right _ _ (by positivity)]
    rw [heq, hscale]
    exact isRne64_encode64 henc hdist htie hlow

/-! ### Bounds of a rounded value by values that have an encoding -/

section
variable {w : Word64} {x y : ℚ} (h : IsRne64 w (x : ℚ)) (hy : Representable64 y)
include h hy

theorem IsRne64.le (hxy : x ≤ y) : value64 w ≤ y := by
  obtain ⟨v, hv, rfl⟩ := hy
  have hnear : |value64 w - x| ≤ |value64 v - x| := mod_cast (h.2 v hv).1
  rw [abs_of_nonneg (sub_nonneg.2 hxy)] at hnear
  exact (sub_le_sub_iff_right x).1 ((le_abs_self _).trans hnear)

theorem IsRne64.ge (hxy : y ≤ x) : y ≤ value64 w := by
  obtain ⟨v, hv, rfl⟩ := hy
  have hnear : |value64 w - x| ≤ |value64 v - x| := mod_cast (h.2 v hv).1
  rw [abs_sub_comm, abs_sub_comm (value64 v), abs_of_nonneg (sub_nonneg.2 hxy)] at hnear
  exact (sub_le_sub_iff_left x).1 ((le_abs_self _).trans hnear)

end

section
variable {n d : Nat} (hd : d ≠ 0) (hrange : n ≤ d * 2 ^ 1023) {y : ℚ} (hy : Representable64 y)
include hd hrange

theorem rne64_isRne64_rat : IsRne64 (rne64 n d) ((n / d : ℚ) : ℝ) := by
  rw [Rat.cast_div, Rat.cast_natCast, Rat.cast_natCast]
  exact rne64_isRne64 hd hrange

theorem rne64_finite : Finite64 (rne64 n d) := (rne64_isRne64 hd hrange).1

include hy

theorem value64_rne64_le (h : (n : ℚ) / d ≤ y) : value64 (rne64 n d) ≤ y :=
  (rne64_isRne64_rat hd hrange).le hy h

theorem le_value64_rne64 (h : y ≤ (n : ℚ) / d) : y ≤ value64 (rne64 n d) :=
  (rne64_isRne64_rat hd hrange).ge hy h

/-- Rounding is exact on the values that have an encoding. -/
theorem value64_rne64_eq (h : (n : ℚ) / d = y) : value64 (rne64 n d) = y :=
  le_antisymm (value64_rne64_le hd hrange hy h.le) (le_value64_rne64 hd hrange hy h.ge)

end

/-- A numerator far below the end of the range. -/
theorem range_of_le {n d j : Nat} (hj : j ≤ 1023) (h : n ≤ d * 2 ^ j) : n ≤ d * 2 ^ 1023 := by
  refine h.trans ?_
  gcongr
  exact one_le_two

/-- No rounded value has a sign, in range or not. -/
theorem rne64_sign (n d : Nat) : (rne64 n d).getLsbD 63 = false := by
  rw [sign_eq_false_iff, rne64]
  split
  · decide
  · rw [BitVec.toNat_ofNat]
    exact (Nat.mod_le _ _).trans_lt ((min_le_left _ _).trans_lt (by decide))

end Sys2Proof.Machine
end

section
/-!
PROOFS. The family of 42_estimator.md: the two sums and the raw estimate in their ranges (R120 to R122), the small-range test and
its quotient (R123), the exact product `m * LN64(q)` and the size of this block's logarithm (R123, R127), and the command
ESTIMATE (R124 to R126).
-/

namespace Sys2Proof.Machine

/-! ### The harmonic sum and the zero count (R120, R121) -/

theorem le_harmonicSum (reg : Memory) (B : Nat) : 2 ^ B ≤ harmonicSum reg B := by
  rw [harmonicSum_eq_sum]
  calc 2 ^ B = ∑ _i ∈ Finset.range (2 ^ B), 1 := by simp
    _ ≤ _ := Finset.sum_le_sum fun _ _ => Nat.one_le_two_pow

theorem harmonicSum_le (reg : Memory) (B : Nat) : harmonicSum reg B ≤ 2 ^ B * 2 ^ 31 := by
  rw [harmonicSum_eq_sum]
  calc _ ≤ ∑ _i ∈ Finset.range (2 ^ B), 2 ^ 31 :=
        Finset.sum_le_sum fun _ _ => Nat.pow_le_pow_right two_pos (Nat.sub_le _ _)
    _ = 2 ^ B * 2 ^ 31 := by simp

theorem harmonicSum_pos (reg : Memory) (B : Nat) : 0 < harmonicSum reg B :=
  (Nat.two_pow_pos B).trans_le (le_harmonicSum reg B)

theorem zeroCount_eq_card (reg : Memory) (B : Nat) :
    zeroCount reg B = ((Finset.range (2 ^ B)).filter (fun i => reg.read i = 0#5)).card := by
  rw [zeroCount_eq_sum, Finset.card_filter]

theorem zeroCount_le (reg : Memory) (B : Nat) : zeroCount reg B ≤ 2 ^ B := by
  rw [zeroCount_eq_card]
  exact (Finset.card_filter_le _ _).trans_eq (Finset.card_range _)

/-- Settles O43: the sum by halving adds 1 for each register in use that is 0. -/
theorem zeroCountCountsZeroRegisters : Obligations.ZeroCountCountsZeroRegisters :=
  fun reg B => ⟨zeroCount_eq_card reg B, zeroCount_le reg B⟩

section
variable {reg : Memory} {B : Nat} (hzero : ∀ i, i < 2 ^ B → reg.read i = 0#5)
include hzero

theorem harmonicSum_of_empty : harmonicSum reg B = 2 ^ B * 2 ^ 31 := by
  rw [harmonicSum_eq_sum, Finset.sum_congr rfl fun i hi => by rw [hzero i (Finset.mem_range.1 hi)]]
  simp

theorem zeroCount_of_empty : zeroCount reg B = 2 ^ B := by
  rw [zeroCount_eq_sum, Finset.sum_congr rfl fun i hi => if_pos (hzero i (Finset.mem_range.1 hi))]
  simp

end

/-! ### The raw estimate (R122) -/

theorem value64_alpha : value64 Config.alpha = 3248446411222339 / 2 ^ 52 := by
  have hden : (den64 Config.alpha : ℚ) ≠ 0 := Nat.cast_ne_zero.2 (den64_pos _).ne'
  rw [value64, div_eq_div_iff hden (by positivity)]
  have h := congrArg (Nat.cast (R := ℚ)) alpha_fraction
  rwa [Nat.cast_mul, Nat.cast_mul, Nat.cast_pow, Nat.cast_ofNat, Nat.cast_ofNat] at h

/-- The numerator of the fraction that the raw estimate rounds. -/
def rawNum (B : Nat) : Nat := num64 Config.alpha * (2 ^ B) ^ 2 * 2 ^ 31

/-- Its denominator. -/
def rawDen (reg : Memory) (B : Nat) : Nat := den64 Config.alpha * harmonicSum reg B

theorem rawEstimate_eq (reg : Memory) (B : Nat) : rawEstimate reg B = rne64 (rawNum B) (rawDen reg B) := rfl

theorem rawDen_ne_zero (reg : Memory) (B : Nat) : rawDen reg B ≠ 0 :=
  (Nat.mul_pos (den64_pos _) (harmonicSum_pos reg B)).ne'

theorem rawNum_div_rawDen (reg : Memory) (B : Nat) :
    (rawNum B : ℚ) / rawDen reg B = value64 Config.alpha * (2 ^ B) ^ 2 * 2 ^ 31 / harmonicSum reg B := by
  simp only [rawNum, rawDen, value64, Nat.cast_mul, Nat.cast_pow, Nat.cast_ofNat]
  rw [div_mul_eq_mul_div, div_mul_eq_mul_div, div_div]

theorem rawNum_le (reg : Memory) {B : Nat} (hB : B ≤ 16) : rawNum B ≤ rawDen reg B * 2 ^ 1023 := by
  have hdiv : rawNum B ≤ 2 ^ 116 := by
    have hpow : 2 ^ B ≤ 2 ^ 16 := Nat.pow_le_pow_right two_pos hB
    have halpha : num64 Config.alpha ≤ 2 ^ 53 := by decide
    calc rawNum B ≤ 2 ^ 53 * (2 ^ 16) ^ 2 * 2 ^ 31 := by unfold rawNum; gcongr
      _ = 2 ^ 116 := by norm_num
  exact range_of_le (j := 116) (by norm_num)
    (hdiv.trans (Nat.le_mul_of_pos_left _ (Nat.pos_of_ne_zero (rawDen_ne_zero reg B))))

/-- The raw estimate before rounding is at least `ALPHA * m`, the harmonic sum being at most `m`. -/
theorem le_rawNum_div_rawDen (reg : Memory) (B : Nat) : value64 Config.alpha * 2 ^ B ≤ (rawNum B : ℚ) / rawDen reg B := by
  have hsum : (harmonicSum reg B : ℚ) ≤ 2 ^ B * 2 ^ 31 := mod_cast harmonicSum_le reg B
  rw [rawNum_div_rawDen, le_div_iff₀ (Nat.cast_pos.2 (harmonicSum_pos reg B))]
  calc value64 Config.alpha * 2 ^ B * harmonicSum reg B ≤ value64 Config.alpha * 2 ^ B * (2 ^ B * 2 ^ 31) :=
        mul_le_mul_of_nonneg_left hsum (mul_nonneg (value64_nonneg _) (by positivity))
    _ = _ := by ring

theorem representable64_alpha_mul {B : Nat} (hB : B ≤ 16) : Representable64 (value64 Config.alpha * 2 ^ B) := by
  have h := representable64_scaled (k := 3248446411222339) (i := B) (j := 52) (by norm_num) (by omega) (by norm_num)
  rwa [value64_alpha, div_mul_eq_mul_div]

theorem le_value64_rawEstimate (reg : Memory) {B : Nat} (hB : B ≤ 16) :
    value64 Config.alpha * 2 ^ B ≤ value64 (rawEstimate reg B) :=
  rawEstimate_eq reg B ▸
    le_value64_rne64 (rawDen_ne_zero reg B) (rawNum_le reg hB) (representable64_alpha_mul hB) (le_rawNum_div_rawDen reg B)

theorem value64_rawEstimate_of_empty {reg : Memory} {B : Nat} (hB : B ≤ 16) (hzero : ∀ i, i < 2 ^ B → reg.read i = 0#5) :
    value64 (rawEstimate reg B) = value64 Config.alpha * 2 ^ B := by
  rw [rawEstimate_eq]
  refine value64_rne64_eq (rawDen_ne_zero reg B) (rawNum_le reg hB) (representable64_alpha_mul hB) ?_
  rw [rawNum_div_rawDen, harmonicSum_of_empty hzero]
  simp only [Nat.cast_mul, Nat.cast_pow, Nat.cast_ofNat]
  field_simp

theorem rawEstimate_normal (reg : Memory) {B : Nat} (hB : B ≤ 16) : NormalOrZero64 (rawEstimate reg B) := by
  refine normalOrZero64_of_le (rawEstimate_eq reg B ▸ rne64_finite (rawDen_ne_zero reg B) (rawNum_le reg hB)) ?_
  have hpow : (1 : ℚ) ≤ 2 ^ B := one_le_pow₀ one_le_two
  calc 2 ^ 52 * unit64 2 ≤ 1 / 2 ^ 128 := normal_threshold_le
    _ ≤ value64 Config.alpha * 1 := by rw [value64_alpha]; norm_num
    _ ≤ value64 Config.alpha * 2 ^ B := mul_le_mul_of_nonneg_left hpow (value64_nonneg _)
    _ ≤ value64 (rawEstimate reg B) := le_value64_rawEstimate reg hB

/-! ### The small-range test (R123) -/

/-- The test on integers is the one on values. -/
theorem smallRange_iff (reg : Memory) (B : Nat) :
    smallRange reg B = true ↔ value64 (rawEstimate reg B) ≤ 5 / 2 * 2 ^ B ∧ 0 < zeroCount reg B := by
  rw [smallRange, Bool.and_eq_true, decide_eq_true_eq, decide_eq_true_eq]
  refine and_congr_left fun _ => ?_
  have hfactor : (num64 Config.srFactor : ℚ) / den64 Config.srFactor = 5 / 2 := by
    rw [div_eq_div_iff (Nat.cast_ne_zero.2 (den64_pos _).ne') two_ne_zero]
    exact_mod_cast srFactor_fraction
  have hraw : (0 : ℚ) < den64 (rawEstimate reg B) := Nat.cast_pos.2 (den64_pos _)
  have hfac : (0 : ℚ) < den64 Config.srFactor := Nat.cast_pos.2 (den64_pos _)
  rw [← hfactor, value64, div_mul_eq_mul_div, div_le_div_iff₀ hraw hfac, regsInUse]
  exact_mod_cast Iff.rfl

theorem estimateWith_of_smallRange (ln : Word64 → Word64) {reg : Memory} {B : Nat}
    (h : value64 (rawEstimate reg B) ≤ 5 / 2 * 2 ^ B ∧ 0 < zeroCount reg B) :
    estimateWith ln reg B = mulNat64 (2 ^ B) (ln (rne64 (2 ^ B) (zeroCount reg B))) := by
  rw [estimateWith_eq, if_pos ((smallRange_iff reg B).2 h)]
  rfl

theorem estimateWith_of_not_smallRange (ln : Word64 → Word64) {reg : Memory} {B : Nat}
    (h : ¬ (value64 (rawEstimate reg B) ≤ 5 / 2 * 2 ^ B ∧ 0 < zeroCount reg B)) :
    estimateWith ln reg B = rawEstimate reg B := by
  rw [estimateWith_eq, if_neg ((smallRange_iff reg B).not.2 h)]

/-! ### The quotient `RNE64(m / V)` -/

theorem representable64_one : Representable64 1 := by
  simpa using representable64_div (k := 1) (j := 0) (by norm_num) (by norm_num)

section
variable {B V : Nat} (hB : B ≤ 16) (hpos : 0 < V) (hle : V ≤ 2 ^ B)

include hB in
theorem representable64_two_pow : Representable64 (2 ^ B) := by
  simpa using representable64_scaled (k := 1) (i := B) (j := 0) (by norm_num) (by omega) (by norm_num)

include hB hpos

theorem quotient_range : 2 ^ B ≤ V * 2 ^ 1023 :=
  range_of_le (j := 16) (by norm_num)
    ((Nat.pow_le_pow_right two_pos hB).trans (Nat.le_mul_of_pos_left _ hpos))

theorem quotient_finite : Finite64 (rne64 (2 ^ B) V) := rne64_finite hpos.ne' (quotient_range hB hpos)

theorem quotient_isRne64 : IsRne64 (rne64 (2 ^ B) V) ((2 ^ B : ℝ) / V) := by
  have h := rne64_isRne64 hpos.ne' (quotient_range hB hpos)
  rwa [Nat.cast_pow, Nat.cast_ofNat] at h

theorem quotient_le : value64 (rne64 (2 ^ B) V) ≤ 2 ^ B := by
  refine value64_rne64_le hpos.ne' (quotient_range hB hpos) (representable64_two_pow hB) ?_
  rw [Nat.cast_pow, Nat.cast_ofNat]
  exact div_le_self (by positivity) (mod_cast hpos)

theorem quotient_le_65536 : value64 (rne64 (2 ^ B) V) ≤ 65536 := by
  have hpow : (2 : ℚ) ^ B ≤ 2 ^ 16 := pow_le_pow_right₀ one_le_two hB
  calc _ ≤ (2 : ℚ) ^ B := quotient_le hB hpos
    _ ≤ 65536 := hpow.trans_eq (by norm_num)

include hle

theorem one_le_quotient : 1 ≤ value64 (rne64 (2 ^ B) V) := by
  refine le_value64_rne64 hpos.ne' (quotient_range hB hpos) representable64_one ?_
  rw [one_le_div (Nat.cast_pos.2 hpos)]
  exact mod_cast hle

/-- Only `V = m` rounds to 1: any smaller `V` leaves a quotient of at least `1 + 2^-16`, which has an encoding. -/
theorem quotient_eq_one_iff : value64 (rne64 (2 ^ B) V) = 1 ↔ V = 2 ^ B := by
  have hV : (0 : ℚ) < V := Nat.cast_pos.2 hpos
  refine ⟨fun hone => ?_, fun hV => ?_⟩
  · by_contra hne
    have hrep : Representable64 (65537 / 2 ^ 16) :=
      mod_cast representable64_div (k := 65537) (j := 16) (by norm_num) (by norm_num)
    have hpow : 2 ^ B ≤ 2 ^ 16 := Nat.pow_le_pow_right two_pos hB
    have hstep : 65537 * V ≤ 2 ^ B * 2 ^ 16 := by omega
    have hge := le_value64_rne64 hpos.ne' (quotient_range hB hpos) hrep (by
      rw [div_le_div_iff₀ (by positivity) hV]
      exact_mod_cast hstep)
    rw [hone] at hge
    norm_num at hge
  · subst hV
    exact value64_rne64_eq hpos.ne' (quotient_range hB hpos) representable64_one (div_self hV.ne')

end

theorem value64_one : value64 0x3FF0000000000000#64 = 1 := by
  have hexp : effExp 0x3FF0000000000000#64 = 1023 := by decide
  have hsig : significand 0x3FF0000000000000#64 = 2 ^ 52 := by decide
  have hunit : unit64 (1023 + 52) = 2 ^ 52 * unit64 1023 := unit64_add 1023 52
  rw [value64_eq, hexp, hsig, Nat.cast_pow, Nat.cast_ofNat, ← hunit]
  exact unit64_1075

theorem quotient_self {B : Nat} (hB : B ≤ 16) : rne64 (2 ^ B) (2 ^ B) = 0x3FF0000000000000#64 := by
  have hpos := Nat.two_pow_pos B
  refine value64_injective (quotient_finite hB hpos) ⟨by decide, by decide⟩ ?_
  rw [value64_one, (quotient_eq_one_iff hB hpos le_rfl).2 rfl]

/-! ### The product `m * LN64(q)` (R123) -/

theorem mulNat64_zero (n : Nat) : mulNat64 n 0#64 = 0#64 := by
  rw [mulNat64, num64_eq, significand_zero, Nat.zero_mul, Nat.mul_zero, rne64_zero]

section
variable {B : Nat} {x : Word64} (hB : B ≤ 16) (hlt : value64 x < 12)
include hB hlt

theorem product_range : 2 ^ B * num64 x ≤ den64 x * 2 ^ 1023 := by
  have hnum : num64 x ≤ 12 * den64 x := by
    rw [value64, div_lt_iff₀ (Nat.cast_pos.2 (den64_pos x))] at hlt
    exact_mod_cast hlt.le
  refine range_of_le (j := 20) (by norm_num) ?_
  calc 2 ^ B * num64 x ≤ 2 ^ 16 * (12 * den64 x) := Nat.mul_le_mul (Nat.pow_le_pow_right two_pos hB) hnum
    _ ≤ den64 x * 2 ^ 20 := by omega

/-- The product is exact: a power of two moves the exponent alone, and the range ends far above `2^16 * 12`. -/
theorem value64_mulNat64 : value64 (mulNat64 (2 ^ B) x) = 2 ^ B * value64 x := by
  have hexp : effExp x < 1075 := effExp_lt_of_value64_lt (by norm_num) (by rw [unit64_1075]; linarith)
  have hvalue : 2 ^ B * value64 x = significand x * unit64 (effExp x + B) := by
    rw [value64_eq, unit64_add, mul_left_comm]
  refine value64_rne64_eq (den64_pos x).ne' (product_range hB hlt) ?_ ?_
  · rw [hvalue]
    exact representable64_mul_unit (by have := effExp_pos x; omega) (by omega) (significand_lt x).le
  · rw [Nat.cast_mul, Nat.cast_pow, Nat.cast_ofNat, mul_div_assoc, value64]

theorem mulNat64_normalOrZero (hpos : 1 ≤ B) (hx : NormalOrZero64 x) : NormalOrZero64 (mulNat64 (2 ^ B) x) := by
  obtain ⟨hfinite, rfl | hnormal⟩ := hx
  · rw [mulNat64_zero]
    exact ⟨hfinite, .inl rfl⟩
  · refine normalOrZero64_of_le (rne64_finite (den64_pos x).ne' (product_range hB hlt)) ?_
    have htwo : (2 : ℚ) ≤ 2 ^ B := le_self_pow₀ one_le_two (by omega)
    calc 2 ^ 52 * unit64 2 = 2 * (2 ^ 52 * unit64 1) := by rw [unit64_succ, mul_left_comm]
      _ ≤ 2 ^ B * value64 x := mul_le_mul htwo (le_value64_of_normal hnormal)
          (mul_nonneg (by positivity) (unit64_pos 1).le) (by positivity)
      _ = value64 (mulNat64 (2 ^ B) x) := (value64_mulNat64 hB hlt).symm

end

/-! ### The size of this block's logarithm (R123, R127) -/

theorem div_le_div_of_cross {m n p q : Nat} (hp : 0 < p) (hq : 0 < q) (h : m * q ≤ n * p) : m / p ≤ n / q := by
  rw [Nat.le_div_iff_mul_le hq]
  refine Nat.le_of_mul_le_mul_right (c := p) ?_ hp
  calc m / p * q * p = m / p * p * q := Nat.mul_right_comm _ _ _
    _ ≤ m * q := Nat.mul_le_mul_right _ (Nat.div_mul_le_self m p)
    _ ≤ n * p := h

section
variable {a b : Nat} (hb : 0 < b) (h : 3 * a ≤ b)
include hb h

/-- Horner's sum grows with its argument, here up to `1/3`. -/
theorem artanhHorner_le (n k : Nat) : artanhHorner a b n k ≤ artanhHorner 1 3 n k := by
  induction n generalizing k with
  | zero => exact le_rfl
  | succ n ih =>
    have hsquare : 9 * (a * a) ≤ b * b := by
      calc 9 * (a * a) = 3 * a * (3 * a) := by ring
        _ ≤ b * b := Nat.mul_le_mul h h
    refine Nat.add_le_add_left (div_le_div_of_cross (Nat.mul_pos hb hb) (by norm_num) ?_) _
    calc artanhHorner a b n (k + 1) * (a * a) * (3 * 3) = artanhHorner a b n (k + 1) * (9 * (a * a)) := by ring
      _ ≤ artanhHorner 1 3 n (k + 1) * (b * b) := Nat.mul_le_mul (ih _) hsquare
      _ = artanhHorner 1 3 n (k + 1) * (1 * 1) * (b * b) := by ring

theorem artanhLow_le : artanhLow a b ≤ artanhLow 1 3 := by
  refine div_le_div_of_cross hb (by norm_num) ?_
  calc 2 * a * artanhHorner a b Config.lnTerms 0 * 3 = 2 * (3 * a) * artanhHorner a b Config.lnTerms 0 := by ring
    _ ≤ 2 * b * artanhHorner 1 3 Config.lnTerms 0 :=
        Nat.mul_le_mul (Nat.mul_le_mul_left _ h) (artanhHorner_le hb h _ _)
    _ = 2 * 1 * artanhHorner 1 3 Config.lnTerms 0 * b := by ring

end

theorem artanhLow_zero (b : Nat) : artanhLow 0 b = 0 := by
  rw [artanhLow, Nat.mul_zero, Nat.zero_mul, Nat.zero_div]

/-- 17 logarithms of 2 stay below 12 with room for the rounding. -/
theorem artanhLow_one_three_le : 17 * artanhLow 1 3 * 2 ^ 3 ≤ 95 * 2 ^ 128 := by decide +kernel

theorem lnExp_le {q : Word64} (h : value64 q ≤ 65536) : lnExp q ≤ 16 := by
  have hunit : unit64 (1040 + 35) = 2 ^ 35 * unit64 1040 := unit64_add 1040 35
  have hexp : effExp q < 1040 := effExp_lt_of_value64_lt (by norm_num) (by
    rw [unit64_1075] at hunit
    linarith)
  rw [effExp] at hexp
  unfold lnExp
  omega

theorem lnLow_le {q : Word64} (h : value64 q ≤ 65536) : lnLow q ≤ 17 * artanhLow 1 3 := by
  have hsig := significand_lt q
  calc lnLow q ≤ 16 * artanhLow 1 3 + artanhLow 1 3 :=
        Nat.add_le_add (Nat.mul_le_mul_right _ (lnExp_le h)) (artanhLow_le (by positivity) (by omega))
    _ = 17 * artanhLow 1 3 := by ring

theorem ln64_eq (q : Word64) : ln64 q = rne64 (lnLow q) (2 ^ 128) := congrArg (rne64 _) (Nat.one_shiftLeft _)

theorem ln64_one : ln64 0x3FF0000000000000#64 = 0#64 := by
  have hexp : lnExp 0x3FF0000000000000#64 = 0 := by decide
  have hsig : significand 0x3FF0000000000000#64 - 2 ^ 52 = 0 := by decide
  rw [ln64_eq, lnLow, hexp, hsig, artanhLow_zero, Nat.zero_mul, rne64_zero]

section
variable {q : Word64} (h : value64 q ≤ 65536)
include h

theorem lnLow_range : lnLow q ≤ 2 ^ 128 * 2 ^ 1023 := by
  refine range_of_le (j := 4) (by norm_num) ?_
  have := lnLow_le h
  have := artanhLow_one_three_le
  omega

theorem ln64_finite : Finite64 (ln64 q) := ln64_eq q ▸ rne64_finite (by positivity) (lnLow_range h)

theorem ln64_lt : value64 (ln64 q) < 12 := by
  have hrep : Representable64 (95 / 2 ^ 3) :=
      mod_cast representable64_div (k := 95) (j := 3) (by norm_num) (by norm_num)
  have hlow : lnLow q * 2 ^ 3 ≤ 95 * 2 ^ 128 :=
    (Nat.mul_le_mul_right _ (lnLow_le h)).trans artanhLow_one_three_le
  have hle : value64 (ln64 q) ≤ 95 / 2 ^ 3 := by
    rw [ln64_eq]
    refine value64_rne64_le (by positivity) (lnLow_range h) hrep ?_
    rw [div_le_div_iff₀ (by positivity) (by positivity)]
    exact_mod_cast hlow
  exact hle.trans_lt (by norm_num)

theorem ln64_normalOrZero : NormalOrZero64 (ln64 q) := by
  obtain hzero | hpos := (lnLow q).eq_zero_or_pos
  · refine ⟨ln64_finite h, .inl ?_⟩
    rw [ln64_eq, hzero, rne64_zero]
  · have hrep : Representable64 (1 / 2 ^ 128) :=
      mod_cast representable64_div (k := 1) (j := 128) (by norm_num) (by norm_num)
    refine normalOrZero64_of_le (ln64_finite h) (normal_threshold_le.trans ?_)
    rw [ln64_eq]
    refine le_value64_rne64 (by positivity) (lnLow_range h) hrep ?_
    rw [Nat.cast_pow, Nat.cast_ofNat]
    gcongr
    exact_mod_cast hpos

end

/-! ### The estimate (R123 to R126) -/

/-- Settles O45: the test on integers is the one on values, the quotient is rounded between the encodings of 1 and `m`, and the
product with a power of two is exact. -/
theorem estimateTakesTheSmallRangeBranch : Obligations.EstimateTakesTheSmallRangeBranch := by
  intro s hs hc
  obtain ⟨-, hB⟩ := hs.precLegal hc
  refine ⟨fun hsmall => ?_, estimateWith_of_not_smallRange _⟩
  have hpos := hsmall.2
  have hle := zeroCount_le s.reg s.prec.toNat
  have hq := quotient_le_65536 hB hpos
  refine ⟨rne64 (2 ^ s.prec.toNat) (zeroCount s.reg s.prec.toNat), quotient_isRne64 hB hpos,
    one_le_quotient hB hpos hle, quotient_le hB hpos, quotient_eq_one_iff hB hpos hle, fun _ hlt => ?_, fun hd => ?_⟩
  · rw [estimateWith_of_smallRange _ hsmall, value64_mulNat64 hB hlt]
  · exact ⟨by rw [hd, lnOf_nil], ln64_finite hq, ln64_lt hq⟩

theorem estimateWith_normalOrZero {ln : Word64 → Word64} {reg : Memory} {B : Nat} (hlo : 4 ≤ B) (hB : B ≤ 16)
    (hln : 0 < zeroCount reg B → NormalOrZero64 (ln (rne64 (2 ^ B) (zeroCount reg B))) ∧
      value64 (ln (rne64 (2 ^ B) (zeroCount reg B))) < 12) : NormalOrZero64 (estimateWith ln reg B) := by
  by_cases hsmall : value64 (rawEstimate reg B) ≤ 5 / 2 * 2 ^ B ∧ 0 < zeroCount reg B
  · obtain ⟨hnormal, hlt⟩ := hln hsmall.2
    rw [estimateWith_of_smallRange _ hsmall]
    exact mulNat64_normalOrZero hB hlt (by omega) hnormal
  · rw [estimateWith_of_not_smallRange _ hsmall]
    exact rawEstimate_normal reg hB

/-- Settles O47: the raw estimate is at least `ALPHA * m`, and the product moves the exponent of a logarithm that is normal or
`+0.0`, as this block's is at every quotient. -/
theorem estimatesAreNormalOrZero : Obligations.EstimatesAreNormalOrZero := by
  intro s hs hc
  obtain ⟨hlo, hB⟩ := hs.precLegal hc
  refine ⟨harmonicSum_pos _ _, rawEstimate_normal _ hB, fun hd => ?_, fun hnormal hlt => ?_⟩
  · refine estimateWith_normalOrZero hlo hB fun hpos => ?_
    rw [hd, lnOf_nil]
    have hq := quotient_le_65536 hB hpos
    exact ⟨ln64_normalOrZero hq, ln64_lt hq⟩
  · exact estimateWith_normalOrZero hlo hB fun _ => ⟨hnormal, hlt⟩

/-- An empty array passes the small-range test and has the quotient 1. -/
theorem estimateWith_of_empty {ln : Word64 → Word64} {reg : Memory} {B : Nat} (hB : B ≤ 16)
    (hzero : ∀ i, i < 2 ^ B → reg.read i = 0#5) (hln : ln 0x3FF0000000000000#64 = 0#64) : estimateWith ln reg B = 0#64 := by
  have hpow : (0 : ℚ) < 2 ^ B := by positivity
  have hsmall : value64 (rawEstimate reg B) ≤ 5 / 2 * 2 ^ B ∧ 0 < zeroCount reg B := by
    rw [value64_rawEstimate_of_empty hB hzero, zeroCount_of_empty hzero, value64_alpha]
    refine ⟨mul_le_mul_of_nonneg_right ?_ hpow.le, Nat.two_pow_pos B⟩
    norm_num
  rw [estimateWith_of_smallRange _ hsmall, zeroCount_of_empty hzero, quotient_self hB, hln, mulNat64_zero]

/-- ESTIMATE on an empty sketch (42_estimator.md R125). -/
theorem exec_estimate_of_empty {s : State} (hc : s.configured = true) (hB : s.prec.toNat ≤ 16)
    (hzero : ∀ i, i < 2 ^ s.prec.toNat → s.reg.read i = 0#5) (hln : lnOf s.lnDepartures 0x3FF0000000000000#64 = 0#64) :
    ∃ t, exec .estimate s = .next t ∧ t.lastStatus = 0#8 ∧ t.result = 0#64 :=
  ⟨_, exec_estimate hc, rfl, estimateWith_of_empty hB hzero hln⟩

/-- The commands that begin the sketch anew leave an empty one. -/
theorem exec_estimate_of_restarts {i : Instr} {s : State} (hi : restarts i = true) (ha : Accepts i s)
    (hc : (effect i s).configured = true) (hB : (effect i s).prec.toNat ≤ 16)
    (hln : lnOf (effect i s).lnDepartures 0x3FF0000000000000#64 = 0#64) : ∃ t u,
      exec i s = .next t ∧ exec .estimate t = .next u ∧ u.lastStatus = 0#8 ∧ u.result = 0#64 := by
  have hzero : ∀ k, (effect i s).reg.read k = 0#5 := by
    obtain rfl | ⟨p, mode, seed, rfl⟩ := (restarts_iff i).1 hi
    · exact fun _ => rfl
    · exact fun _ => rfl
  obtain ⟨u, hu⟩ := exec_estimate_of_empty (s := respond (resultOf i s) (effect i s)) hc hB (fun k _ => hzero k) hln
  exact ⟨_, u, exec_of_accepts ha, hu⟩

/-- Settles O46: on an empty array `S = m` and `V = m`, so the raw estimate is exact, the test passes and the quotient is 1;
CONFIG and CLEAR leave such an array. -/
theorem emptySketchEstimatesZero : Obligations.EmptySketchEstimatesZero := by
  refine ⟨fun s hs hc hzero => ?_, fun p mode seed s hlo hhi hln => ?_, fun s hs hc hclear hln => ?_, ln64_one,
    fun ln B _ hB hln => estimateWith_of_empty hB (fun _ _ => rfl) hln⟩
  · obtain ⟨-, hB⟩ := hs.precLegal hc
    refine ⟨harmonicSum_of_empty hzero, zeroCount_of_empty hzero, ?_, exec_estimate_of_empty hc hB hzero⟩
    rw [value64_rawEstimate_of_empty hB hzero, value64_alpha]
  · have hprec : (effect (.config p mode seed) s).prec.toNat ≤ 16 := (setWidth_prec_toNat hhi).trans_le hhi
    exact exec_estimate_of_restarts (i := .config p mode seed) rfl ⟨fun h => absurd h Bool.false_ne_true, hlo, hhi⟩ rfl
      hprec hln
  · have haccept : ¬ (s.mode = .packed ∧ s.packedClear = .refuse) := by
      rintro ⟨hmode, hrefuse⟩
      simp [hmode, hrefuse] at hclear
    exact exec_estimate_of_restarts (i := .clear) rfl ⟨fun _ => hc, haccept⟩ hc (hs.precLegal hc).2 hln

/-! ### The command ESTIMATE (R124) -/

theorem estimate_encodedAs : EncodedAs 0x07#8 (fun w => w.extractLsb' 8 56 = 0#56) (fun _ => .estimate) :=
  encodedAs_of_row (m := fieldMask 8 56) rfl (fun _ => rfl) rfl rfl rfl (and_fieldMask_eq_zero_iff (by decide))

/-- Either branch of the estimate ends in a rounding. -/
theorem estimateWith_sign (ln : Word64 → Word64) (reg : Memory) (B : Nat) :
    (estimateWith ln reg B).getLsbD 63 = false := by
  rw [estimateWith_eq]
  split
  · rw [linearCounting, mulNat64]
    exact rne64_sign _ _
  · rw [rawEstimate_eq]
    exact rne64_sign _ _

/-- Settles O16: ESTIMATE ends with `respond` as its whole effect, and its word reads neither `MODE` nor the response. -/
theorem estimateReturnsTheEstimateAndKeepsTheSketch : Obligations.EstimateReturnsTheEstimateAndKeepsTheSketch := by
  refine ⟨estimate_encodedAs, fun s => ⟨fun hc => ?_, exec_unconfigured_endsInError rfl⟩⟩
  have hagain := exec_again_of_accepts (i := .estimate) (fun _ => rfl) (s := s) ⟨fun _ => hc, trivial⟩
  exact ⟨_, exec_estimate hc, respond_endsOk _ s, estimateWith_sign _ _ _, respond_sketchKept _ s, hagain,
    fun mode => ⟨_, exec_estimate (s := { s with mode := mode }) hc, rfl⟩⟩

end Sys2Proof.Machine
end

section
/-!
PROOFS. The family of 43_storage.md: CLEAR (R142), READ_REG (R143) and MEM_USAGE (R144).
-/

namespace Sys2Proof.Machine

/-! ### The encodings -/

theorem clear_encodedAs : EncodedAs 0x02#8 (fun w => w.extractLsb' 8 56 = 0#56) (fun _ => .clear) :=
  encodedAs_of_row (m := fieldMask 8 56) rfl (fun _ => rfl) rfl rfl rfl (and_fieldMask_eq_zero_iff (by decide))

theorem memUsage_encodedAs : EncodedAs 0x08#8 (fun w => w.extractLsb' 8 56 = 0#56) (fun _ => .memUsage) :=
  encodedAs_of_row (m := fieldMask 8 56) rfl (fun _ => rfl) rfl rfl rfl (and_fieldMask_eq_zero_iff (by decide))

theorem readReg_encodedAs :
    EncodedAs 0x09#8 (fun w => w.extractLsb' 24 40 = 0#40) (fun w => .readReg (w.extractLsb' 8 16)) :=
  encodedAs_of_row (m := fieldMask 24 40) rfl (fun _ => rfl) rfl rfl rfl (and_fieldMask_eq_zero_iff (by decide))

/-! ### A configured block's refusals -/

/-- On a configured block the error is that of the command's own check (60_exceptions.md R183). -/
theorem refusalCode_of_configured (i : Instr) {s : State} (hc : s.configured = true) : refusalCode i s = ownRefusal i :=
  if_neg fun h => Bool.false_ne_true (h.2.symm.trans hc)

theorem exec_refused_endsInError {i : Instr} {s : State} (hc : s.configured = true) (h : ¬ Accepts i s) :
    ∃ t, exec i s = .next t ∧ EndsInError t (ownRefusal i).code ∧ SketchKept s t :=
  ⟨_, exec_of_refused h, refusalCode_of_configured i hc ▸ raiseError_endsInError _ s, raiseError_sketchKept _ s⟩

/-! ### CLEAR (R142) -/

/-- Where the strategy has CLEAR. -/
theorem accepts_clear {s : State} (hc : s.configured = true) (h : s.mode = .standard ∨ s.packedClear = .support) :
    Accepts .clear s := by
  refine ⟨fun _ => hc, ?_⟩
  rintro ⟨hpacked, hrefuse⟩
  simp [hpacked, hrefuse] at h

/-- Settles O11: an accepted CLEAR empties the register array and ends with `respond`; a refusal is `raiseError` alone. -/
theorem clearZeroesEveryRegister : Obligations.ClearZeroesEveryRegister := by
  refine ⟨clear_encodedAs, fun s =>
    ⟨fun hc hhas => ?_, fun hc hpacked hrefuse => ?_, exec_unconfigured_endsInError rfl⟩⟩
  · have haccept := accepts_clear hc hhas
    exact ⟨_, exec_of_accepts haccept, ⟨rfl, rfl, rfl⟩, fun _ hi => effect_reg?_of_restarts rfl haccept hi,
      ⟨rfl, rfl, rfl, rfl⟩, rfl, ⟨rfl, rfl, rfl⟩⟩
  · exact exec_refused_endsInError hc fun ha => ha.2 ⟨hpacked, hrefuse⟩

/-! ### READ_REG (R143) -/

theorem exec_readReg {s : State} (hc : s.configured = true) {i : BitVec 16} (hi : i.toNat < 2 ^ s.prec.toNat) :
    exec (.readReg i) s = .next (respond ((s.reg.read i.toNat).setWidth 64) s) :=
  exec_of_accepts ⟨fun _ => hc, hi⟩

/-- Settles O18: a 16-bit index lies inside the index space, and a 5-bit value fits the result word. -/
theorem readRegReturnsAnInUseRegister : Obligations.ReadRegReturnsAnInUseRegister := by
  refine ⟨readReg_encodedAs, fun i s => ⟨fun hc hi => ?_, fun hc hi => ?_, exec_unconfigured_endsInError rfl⟩⟩
  · exact ⟨_, _, exec_readReg hc hi, State.reg?_of_configured hc i.isLt, rfl,
      BitVec.toNat_setWidth_of_le (by decide), rfl, respond_sketchKept _ s⟩
  · exact exec_refused_endsInError hc fun ha => Nat.not_lt.2 hi ha.2

/-! ### MEM_USAGE (R144) -/

/-- The footprint of every precision that fits `PREC` fits the result word. -/
theorem packedBytes_lt (B : BitVec 5) : packedBytes B.toNat < 2 ^ 64 := by
  have hpow : 2 ^ B.toNat < 2 ^ 32 := Nat.pow_lt_pow_right (by decide) B.isLt
  simp only [packedBytes, regsInUse]
  omega

/-- From 8 registers on the division by 8 discards nothing. -/
theorem packedBytes_eq {B : Nat} (hB : 3 ≤ B) : packedBytes B = 5 * 2 ^ (B - 3) := by
  have hpow : 2 ^ B = 2 ^ 3 * 2 ^ (B - 3) := by rw [← pow_add, Nat.add_sub_cancel' hB]
  simp only [packedBytes, regsInUse, hpow]
  omega

theorem exec_memUsage {s : State} (hc : s.configured = true) (hm : s.mode = .packed) :
    exec .memUsage s = .next (respond (BitVec.ofNat 64 (packedBytes s.prec.toNat)) s) :=
  exec_of_accepts ⟨fun _ => hc, hm⟩

/-- Settles O17: the footprint fits the result word, and from precision 3 on its division is exact. -/
theorem memUsageReportsThePackedFootprint : Obligations.MemUsageReportsThePackedFootprint := by
  refine ⟨memUsage_encodedAs, fun s => ⟨fun hc hm => ?_, fun hc hm => ?_, exec_unconfigured_endsInError rfl⟩⟩
  · have hresult : (BitVec.ofNat 64 (packedBytes s.prec.toNat)).toNat = packedBytes s.prec.toNat :=
      Nat.mod_eq_of_lt (packedBytes_lt s.prec)
    exact ⟨_, exec_memUsage hc hm, rfl, rfl, hresult, fun hB => hresult.trans (packedBytes_eq (by omega)),
      respond_sketchKept _ s⟩
  · exact exec_refused_endsInError hc fun ha => Mode.noConfusion (hm.symm.trans ha.2)

end Sys2Proof.Machine
end

section
/-!
PROOFS. The family of 44_control.md: NOP (R160), CONFIG (R161, R162) and STATUS (R163).
-/

namespace Sys2Proof.Machine

/-! ### The encodings -/

theorem nop_encodedAs : EncodedAs 0x00#8 (fun w => w.extractLsb' 8 56 = 0#56) (fun _ => .nop) :=
  encodedAs_of_row (m := fieldMask 8 56) rfl (fun _ => rfl) rfl rfl rfl (and_fieldMask_eq_zero_iff (by decide))

theorem status_encodedAs : EncodedAs 0x0A#8 (fun w => w.extractLsb' 8 56 = 0#56) (fun _ => .status) :=
  encodedAs_of_row (m := fieldMask 8 56) rfl (fun _ => rfl) rfl rfl rfl (and_fieldMask_eq_zero_iff (by decide))

theorem and_or_eq_zero_iff (w a b : Word64) : w &&& (a ||| b) = 0#64 ↔ w &&& a = 0#64 ∧ w &&& b = 0#64 := by
  rw [BitVec.and_or_distrib_left, BitVec.or_eq_zero_iff]

/-- The row of CONFIG reserves two fields, on either side of `MODE1`. -/
theorem config_encodedAs :
    EncodedAs 0x01#8 (fun w => w.extractLsb' 17 15 = 0#15 ∧ w.extractLsb' 14 2 = 0#2) (fun w =>
      .config (w.extractLsb' 8 6) (if w.getLsbD 16 = true then .packed else .standard) (w.extractLsb' 32 32)) := by
  refine encodedAs_of_row (m := fieldMask 17 15 ||| fieldMask 14 2) rfl (fun _ => rfl) rfl rfl rfl fun w => ?_
  rw [and_or_eq_zero_iff, and_fieldMask_eq_zero_iff (by decide), and_fieldMask_eq_zero_iff (by decide)]

/-! ### NOP and CONFIG (R160 to R162) -/

/-- Settles O9: NOP is `respond` alone. -/
theorem nopChangesOnlyTheResponse : Obligations.NopChangesOnlyTheResponse :=
  ⟨nop_encodedAs, fun s => ⟨_, rfl, respond_endsOk _ s, respond_sketchKept _ s⟩⟩

/-- Settles O10: CONFIG needs no construction, so its precision alone decides whether it is accepted; an accepted precision
fits `PREC`, and a refusal is `raiseError` alone. -/
theorem configConstructsAnEmptySketch : Obligations.ConfigConstructsAnEmptySketch := by
  refine ⟨config_encodedAs, fun p mode seed s => ⟨fun hp => ?_, fun hp => ?_⟩⟩
  · have haccept : Accepts (.config p mode seed) s := ⟨nofun, hp⟩
    exact ⟨_, exec_of_accepts haccept, ⟨rfl, rfl, rfl⟩, rfl, setWidth_prec_toNat hp.2, rfl, rfl, rfl,
      fun _ hi => effect_reg?_of_restarts rfl haccept hi, effect_sameHost _ s⟩
  · have hrefuse : ¬ Accepts (.config p mode seed) s := by
      rintro ⟨-, hlo, hhi⟩
      omega
    exact ⟨_, exec_of_refused hrefuse, raiseError_endsInError _ s, raiseError_sketchKept _ s⟩

/-! ### STATUS (R163) -/

theorem mode_bit_iff (mode : Mode) : mode.bit.getLsbD 0 = true ↔ mode = .packed := by
  cases mode <;> decide

/-- The result of STATUS, field by field from bit 0 upwards. -/
theorem getLsbD_statusWord (s : State) (k : Nat) : (statusWord s).getLsbD k =
    if k < 1 then (BitVec.ofBool s.configured).getLsbD k
    else if k < 2 then s.mode.bit.getLsbD (k - 1)
    else if k < 8 then false
    else if k < 13 then s.prec.getLsbD (k - 8)
    else if k < 16 then false
    else if k < 17 then (BitVec.ofBool s.stickyErr).getLsbD (k - 16)
    else if k < 32 then false
    else s.seed.getLsbD (k - 32) := by
  simp only [statusWord, BitVec.getLsbD_append, BitVec.getLsbD_zero]
  grind

theorem statusWord_configured (s : State) : (statusWord s).getLsbD 0 = s.configured :=
  (getLsbD_statusWord s 0).trans (by simp)

theorem statusWord_mode (s : State) : (statusWord s).getLsbD 1 = true ↔ s.mode = .packed := by
  rw [getLsbD_statusWord]
  exact mode_bit_iff s.mode

theorem statusWord_prec (s : State) : (statusWord s).extractLsb' 8 5 = s.prec := by
  refine BitVec.eq_of_getLsbD_eq fun i hi => ?_
  rw [BitVec.getLsbD_extractLsb', getLsbD_statusWord]
  grind

theorem statusWord_stickyErr (s : State) : (statusWord s).getLsbD 16 = s.stickyErr :=
  (getLsbD_statusWord s 16).trans (by simp)

theorem statusWord_seed (s : State) : (statusWord s).extractLsb' 32 32 = s.seed := by
  refine BitVec.eq_of_getLsbD_eq fun i hi => ?_
  rw [BitVec.getLsbD_extractLsb', getLsbD_statusWord]
  grind

/-- The three gaps between the fields read 0. -/
theorem statusWord_gaps (s : State) {k : Nat} (hk : (2 ≤ k ∧ k < 8) ∨ (13 ≤ k ∧ k < 16) ∨ (17 ≤ k ∧ k < 32)) :
    (statusWord s).getLsbD k = false := by
  rw [getLsbD_statusWord]
  grind

/-- Settles O19: STATUS is `respond` alone, with the status word of the state before it. -/
theorem statusReportsTheConfiguration : Obligations.StatusReportsTheConfiguration :=
  ⟨status_encodedAs, fun s => ⟨_, rfl, rfl, rfl, respond_sketchKept _ s, statusWord_configured s, statusWord_mode s,
    statusWord_prec s, statusWord_stickyErr s, statusWord_seed s, fun _ => statusWord_gaps s⟩⟩

end Sys2Proof.Machine
end

section
/-!
PROOFS. The family of 60_exceptions.md: which commands an unconfigured block accepts (R181), what a command that ends in
error changes (R182), and which of several errors it reports (R183).
-/

namespace Sys2Proof.Machine

open Laws.OpcodeOfWord (opcode)

/-! ### A command that ends in error (R182) -/

/-- The block answers every word with a next state (R182, R185). -/
theorem runWord_total (w : Word64) (s : State) : ∃ t, runWord w s = .next t := by
  cases hd : decode w with
  | error e => exact ⟨_, runWord_of_error hd s⟩
  | ok i => exact runWord_of_ok hd s ▸ exec_total i s

/-- Settles O21: a word ends with `raiseError` or with an accepted command's status, which is `OK`. -/
theorem anErrorHasNoOtherEffect : Obligations.AnErrorHasNoOtherEffect := by
  intro s t w h herror
  obtain ⟨e, rfl⟩ | ⟨i, -, -, rfl⟩ := runWord_cases h
  · exact ⟨rfl, fun w' => runWord_total w' _⟩
  · exact absurd rfl herror

/-! ### The status of a command (R180, R181) -/

/-- The status of a command's own check, after the one for a construction. The last arm covers the commands that have no
check of their own. -/
def ownStatus (i : Instr) (s : State) : BitVec 8 :=
  match i with
  | .config p _ _ => if p.toNat < 4 ∨ 16 < p.toNat then 4#8 else 0#8
  | .clear => if s.mode = .packed ∧ s.packedClear = .refuse then 5#8 else 0#8
  | .memUsage => if s.mode = .standard then 5#8 else 0#8
  | .readReg k => if 2 ^ s.prec.toNat ≤ k.toNat then 6#8 else 0#8
  | _ => 0#8

/-- The status with which a command ends. -/
def commandStatus (i : Instr) (s : State) : BitVec 8 :=
  if needsConfigured i = true ∧ s.configured = false then 3#8 else ownStatus i s

theorem commandStatus_of_accepts {i : Instr} {s : State} (h : Accepts i s) : commandStatus i s = 0#8 := by
  obtain ⟨hc, hown⟩ := h
  rw [commandStatus, if_neg fun ⟨hn, hs⟩ => Bool.false_ne_true (hs.symm.trans (hc hn))]
  cases i with
  | config p mode seed =>
    obtain ⟨hlo, hhi⟩ := hown
    exact if_neg (by omega)
  | clear => exact if_neg hown
  | memUsage => exact if_neg fun hm => Mode.noConfusion (hm.symm.trans hown)
  | readReg k => exact if_neg (Nat.not_le.2 hown)
  | _ => rfl

theorem commandStatus_of_refused {i : Instr} {s : State} (h : ¬ Accepts i s) :
    commandStatus i s = (refusalCode i s).code := by
  by_cases hn : needsConfigured i = true ∧ s.configured = false
  · rw [commandStatus, refusalCode, if_pos hn, if_pos hn, code_notConfigured]
  · rw [commandStatus, refusalCode, if_neg hn, if_neg hn]
    have hc : needsConfigured i = true → s.configured = true := fun hi => by simpa [hi] using hn
    cases i with
    | config p mode seed =>
      exact if_pos (by_contra fun hp => h ⟨hc, not_or.1 hp |>.imp Nat.not_lt.1 Nat.not_lt.1⟩)
    | clear => exact if_pos (by_contra fun hp => h ⟨hc, hp⟩)
    | memUsage =>
      refine if_pos ?_
      cases hm : s.mode with
      | standard => rfl
      | packed => exact absurd ⟨hc, hm⟩ h
    | readReg k => exact if_pos (Nat.not_lt.1 fun hk => h ⟨hc, hk⟩)
    | _ => exact absurd ⟨hc, trivial⟩ h

theorem exec_commandStatus (i : Instr) (s : State) : ∃ t, exec i s = .next t ∧ t.lastStatus = commandStatus i s := by
  by_cases ha : Accepts i s
  · exact ⟨_, exec_of_accepts ha, (commandStatus_of_accepts ha).symm⟩
  · exact ⟨_, exec_of_refused ha, (commandStatus_of_refused ha).symm⟩

/-- Of the commands that need no construction, only CONFIG has a check, and it has its own status. -/
theorem commandStatus_ne_notConfigured {i : Instr} (hn : needsConfigured i = false) (s : State) :
    commandStatus i s ≠ 3#8 := by
  rw [commandStatus, if_neg fun h => Bool.false_ne_true (hn.symm.trans h.1)]
  cases i with
  | nop | status => simp [ownStatus]
  | config p mode seed =>
    rw [ownStatus]
    split <;> simp
  | _ => exact absurd hn.symm Bool.false_ne_true

/-- Settles O20: every command that needs a construction checks for it first, and no other check has that status. -/
theorem unconfiguredBlockAcceptsOnlyThree : Obligations.UnconfiguredBlockAcceptsOnlyThree := by
  intro i s hc
  cases hn : needsConfigured i with
  | true =>
    obtain ⟨t, hexec, herror⟩ := exec_unconfigured_endsInError hn hc
    exact ⟨t, hexec, fun _ => herror, nofun⟩
  | false =>
    obtain ⟨t, hexec, hstatus⟩ := exec_commandStatus i s
    exact ⟨t, hexec, nofun, fun _ => hstatus ▸ commandStatus_ne_notConfigured hn s⟩

/-! ### The order of the checks (R183) -/

/-- The three outcomes of decoding a word, with the command that a word of a row names (30_encoding.md R64). -/
theorem decode_cases (w : Word64) :
    (10 < (opc w).toNat ∧ decode w = .error .illegalOpcode) ∨
    ((opc w).toNat ≤ 10 ∧ decode w = .error .reservedBits) ∨
    ((opc w).toNat ≤ 10 ∧ ∃ i, decode w = .ok i ∧ commandOf (opc w).toNat w = some i) := by
  obtain hop | hop := Nat.lt_or_ge 10 (opc w).toNat
  · exact .inl ⟨hop, decode_of_opcode_gt hop⟩
  · obtain ⟨row, hrow⟩ : ∃ row, opcodeMap[(opc w).toNat]? = some row :=
      ⟨_, List.getElem?_eq_getElem (Nat.lt_succ_of_le hop)⟩
    obtain ⟨i, hi⟩ := commandOf_of_row hrow w
    have hdecode := decode_of_row hrow hi
    by_cases hmeet : w &&& row.mask = row.pattern
    · exact .inr (.inr ⟨hop, i, hdecode.trans (if_pos hmeet), hi⟩)
    · exact .inr (.inl ⟨hop, hdecode.trans (if_neg hmeet)⟩)

theorem opcode_of_commandOf {n : Nat} {w : Word64} {i : Instr} (h : commandOf n w = some i) : n = (opcode i).toNat := by
  unfold commandOf at h
  split at h <;> cases h <;> rfl

theorem needsConfigured_iff_opcode (i : Instr) : needsConfigured i = true ↔ opcode i ∉ [0x00#8, 0x01#8, 0x0A#8] := by
  cases i <;> simp [needsConfigured, opcode]

/-- Settles O22: decoding reports the first two errors, and a decoded command the first of its two checks that fails. -/
theorem statusFollowsTheErrorPriority : Obligations.StatusFollowsTheErrorPriority := by
  intro s w
  obtain ⟨hop, hd⟩ | ⟨hop, hd⟩ | ⟨hop, i, hd, hi⟩ := decode_cases w
  · exact ⟨_, runWord_of_error hd s, (if_pos hop).symm⟩
  · exact ⟨_, runWord_of_error hd s, ((if_neg (Nat.not_lt.2 hop)).trans (if_pos hd)).symm⟩
  · obtain ⟨t, hexec, hstatus⟩ := exec_commandStatus i s
    refine ⟨t, (runWord_of_ok hd s).trans hexec, hstatus.trans ?_⟩
    have hopcode : w.extractLsb' 0 8 = opcode i := BitVec.eq_of_toNat_eq (opcode_of_commandOf hi)
    have hlegal : ¬ 10 < (w.extractLsb' 0 8).toNat := Nat.not_lt.2 hop
    have hreserved : decode w ≠ .error .reservedBits := by simp [hd]
    rw [opcode_of_commandOf hi] at hi
    rw [if_neg hlegal, if_neg hreserved, hopcode]
    refine if_congr (and_comm.trans (and_congr_right' (needsConfigured_iff_opcode i))) rfl ?_
    cases i with
    | config p mode seed =>
      obtain rfl : w.extractLsb' 8 6 = p := by cases hi; rfl
      simp [ownStatus, opcode]
    | readReg k =>
      obtain rfl : w.extractLsb' 8 16 = k := by cases hi; rfl
      simp [ownStatus, opcode]
    | _ => simp [ownStatus, opcode]

end Sys2Proof.Machine
end

section
/-!
PROOFS. The word of a command, field by field as a number (30_encoding.md R60 to R62), and from it: encoder and decoder are
inverse to each other (R63, R65), and what the words of an assembly line decode to (R67, R68).
-/

namespace Sys2Proof.Machine

open Laws.OpcodeOfWord (opcode opc_append)

/-! ### The word of a command as a number -/

theorem toNat_append_eq_add {m n : Nat} (x : BitVec m) (y : BitVec n) : (x ++ y).toNat = x.toNat * 2 ^ n + y.toNat := by
  rw [BitVec.toNat_append, ← Nat.shiftLeft_add_eq_or_of_lt y.isLt, Nat.shiftLeft_eq]

theorem toNat_extractLsb'_eq_mod (w : Word64) (k n : Nat) : (w.extractLsb' k n).toNat = w.toNat / 2 ^ k % 2 ^ n := by
  rw [BitVec.extractLsb'_toNat, Nat.shiftRight_eq_div_pow]

theorem getLsbD_eq_true_iff_mod (w : Word64) (k : Nat) : w.getLsbD k = true ↔ w.toNat / 2 ^ k % 2 = 1 := by
  rw [BitVec.getLsbD, Nat.testBit_eq_decide_div_mod_eq, decide_eq_true_iff]

theorem encode_config_toNat (p : BitVec 6) (mode : Mode) (seed : Word32) :
    (encode (.config p mode seed)).toNat = seed.toNat * 2 ^ 32 + mode.bit.toNat * 2 ^ 16 + p.toNat * 2 ^ 8 + 1 := by
  simp only [encode, toNat_append_eq_add, BitVec.toNat_ofNat]
  omega

theorem encode_addHash_toNat (h : Word32) : (encode (.addHash h)).toNat = h.toNat * 2 ^ 32 + 3 := by
  simp only [encode, toNat_append_eq_add, BitVec.toNat_ofNat]
  omega

theorem encode_hashByte_toNat (c : Byte) : (encode (.hashByte c)).toNat = c.toNat * 2 ^ 8 + 4 := by
  simp only [encode, toNat_append_eq_add, BitVec.toNat_ofNat]
  omega

theorem encode_readReg_toNat (i : BitVec 16) : (encode (.readReg i)).toNat = i.toNat * 2 ^ 8 + 9 := by
  simp only [encode, toNat_append_eq_add, BitVec.toNat_ofNat]
  omega

theorem opc_encode (i : Instr) : opc (encode i) = opcode i := by
  cases i with
  | config | addHash | hashByte | readReg => exact opc_append _ _
  | _ => rfl

/-! ### Decoding is the encoder's inverse -/

theorem opc_of_decode {w : Word64} {i : Instr} (h : decode w = .ok i) : opc w = opcode i := by
  obtain ⟨-, hd⟩ | ⟨-, hd⟩ | ⟨-, j, hd, hj⟩ := decode_cases w
  · simp [hd] at h
  · simp [hd] at h
  · obtain rfl : j = i := by simpa [hd] using h
    exact BitVec.eq_of_toNat_eq (opcode_of_commandOf hj)

/-- The opcode field as a number. -/
theorem opc_toNat (w : Word64) : (opc w).toNat = w.toNat % 2 ^ 8 := by
  rw [← Nat.div_one w.toNat]
  exact toNat_extractLsb'_eq_mod w 0 8

section
variable {mustBeZero : Word64 → Prop} {w : Word64} {i : Instr}

/-- A row's command is decoded from its own word alone, where the row's fields take up the whole word. -/
theorem decode_eq_ok_iff_of_encodedAs {f : Word64 → Instr} (h : EncodedAs (opcode i) mustBeZero f)
    (hfields : w.toNat % 2 ^ 8 = (opcode i).toNat → (mustBeZero w ∧ f w = i ↔ (encode i).toNat = w.toNat)) :
    decode w = .ok i ↔ encode i = w := by
  have hiff : opc w = opcode i → (decode w = .ok i ↔ encode i = w) := fun hop => by
    obtain ⟨hmeet, hmiss⟩ := h w hop
    rw [← BitVec.toNat_inj, ← hfields (by rw [← opc_toNat, hop])]
    by_cases hzero : mustBeZero w
    · simp [hmeet hzero, hzero]
    · simp [hmiss hzero, hzero]
  exact ⟨fun hd => (hiff (opc_of_decode hd)).1 hd, fun he => (hiff (he ▸ opc_encode i)).2 he⟩

/-- The commands without operands. -/
theorem decode_eq_ok_iff_of_bare (h : EncodedAs (opcode i) (fun w => w.extractLsb' 8 56 = 0#56) fun _ => i)
    (hword : (encode i).toNat = (opcode i).toNat) : decode w = .ok i ↔ encode i = w := by
  refine decode_eq_ok_iff_of_encodedAs h fun hlow => ?_
  rw [and_iff_left rfl, ← BitVec.toNat_inj, toNat_extractLsb'_eq_mod, hword, BitVec.toNat_zero]
  omega

end

/-- A word decodes to a command exactly when it is the command's word (30_encoding.md R63 to R65). -/
theorem decode_eq_ok_iff (w : Word64) (i : Instr) : decode w = .ok i ↔ encode i = w := by
  cases i with
  | nop => exact decode_eq_ok_iff_of_bare nop_encodedAs rfl
  | clear => exact decode_eq_ok_iff_of_bare clear_encodedAs rfl
  | hashReset => exact decode_eq_ok_iff_of_bare hashReset_encodedAs rfl
  | addElem => exact decode_eq_ok_iff_of_bare addElem_encodedAs rfl
  | estimate => exact decode_eq_ok_iff_of_bare estimate_encodedAs rfl
  | memUsage => exact decode_eq_ok_iff_of_bare memUsage_encodedAs rfl
  | status => exact decode_eq_ok_iff_of_bare status_encodedAs rfl
  | config p mode seed =>
    refine decode_eq_ok_iff_of_encodedAs config_encodedAs fun hlow => ?_
    simp only [Instr.config.injEq, getLsbD_eq_true_iff_mod, ← BitVec.toNat_inj, toNat_extractLsb'_eq_mod,
      encode_config_toNat, opcode, BitVec.toNat_ofNat] at hlow ⊢
    cases mode <;> simp [Mode.bit] <;> omega
  | addHash h =>
    refine decode_eq_ok_iff_of_encodedAs addHash_encodedAs fun hlow => ?_
    simp only [Instr.addHash.injEq, ← BitVec.toNat_inj, toNat_extractLsb'_eq_mod, encode_addHash_toNat, opcode,
      BitVec.toNat_ofNat] at hlow ⊢
    omega
  | hashByte c =>
    refine decode_eq_ok_iff_of_encodedAs hashByte_encodedAs fun hlow => ?_
    simp only [Instr.hashByte.injEq, ← BitVec.toNat_inj, toNat_extractLsb'_eq_mod, encode_hashByte_toNat, opcode,
      BitVec.toNat_ofNat] at hlow ⊢
    omega
  | readReg k =>
    refine decode_eq_ok_iff_of_encodedAs readReg_encodedAs fun hlow => ?_
    simp only [Instr.readReg.injEq, ← BitVec.toNat_inj, toNat_extractLsb'_eq_mod, encode_readReg_toNat, opcode,
      BitVec.toNat_ofNat] at hlow ⊢
    omega

/-- Settles O6: the word of a command decodes to it. -/
theorem decodeOfEncodeIsTheCommand : Obligations.DecodeOfEncodeIsTheCommand :=
  fun i => (decode_eq_ok_iff (encode i) i).2 rfl

/-- Settles O7: no other word does. -/
theorem encodeOfDecodeIsTheWord : Obligations.EncodeOfDecodeIsTheWord :=
  fun w i => (decode_eq_ok_iff w i).1

/-- Settles O5: each of the seven words is the word of its command, and the decoder names the error of the other two. -/
theorem writtenWordsDecode : Obligations.WrittenWordsDecode := by
  refine ⟨?_, ?_, ?_, ?_, ?_, ?_, ?_, by decide, by decide⟩ <;> exact (decode_eq_ok_iff _ _).2 rfl

/-! ### The assembler (R67, R68) -/

/-- A line whose operands fit assembles to words that decode to the line's commands. -/
theorem assemble_of_wellFormed {line : Asm} (h : line.wellFormed = true) :
    ∃ ws, assemble line = some ws ∧ ws.map decode = (expand line).map Except.ok := by
  refine ⟨_, if_pos h, ?_⟩
  rw [List.map_map]
  exact List.map_congr_left fun i _ => decodeOfEncodeIsTheCommand i

/-- A line that stands for one command. -/
theorem assemble_of_single {line : Asm} {i : Instr} (h : line.wellFormed = true) (hi : expand line = [i]) :
    assemble line = some [encode i] ∧ decode (encode i) = .ok i :=
  ⟨(if_pos h).trans (by rw [hi]; rfl), decodeOfEncodeIsTheCommand i⟩

theorem assemble_of_not_wellFormed {line : Asm} (h : ¬ line.wellFormed = true) : assemble line = none := if_neg h

theorem wellFormed_config_iff {p seed : Nat} {mode : Mode} :
    (Asm.config p mode seed).wellFormed = true ↔ p < 64 ∧ seed < 2 ^ 32 := by
  rw [Asm.wellFormed, Bool.and_eq_true, decide_eq_true_iff, decide_eq_true_iff]
  rfl

theorem wellFormed_new_iff {p : Nat} {mode : Mode} : (Asm.new p mode).wellFormed = true ↔ p < 64 := decide_eq_true_iff

theorem wellFormed_addHash_iff {h : Nat} : (Asm.addHash h).wellFormed = true ↔ h < 2 ^ 32 := decide_eq_true_iff

theorem wellFormed_hashByte_iff {c : Nat} : (Asm.hashByte c).wellFormed = true ↔ c < 256 := decide_eq_true_iff

theorem wellFormed_readReg_iff {i : Nat} : (Asm.readReg i).wellFormed = true ↔ i < 65536 := decide_eq_true_iff

theorem wellFormed_add_iff {element : List Nat} :
    (Asm.add element).wellFormed = true ↔ ∀ c ∈ element, 0x20 ≤ c ∧ c ≤ 0x7E := by
  simp [Asm.wellFormed, printableAscii]

theorem ofNat_toNat_of_lt {n k : Nat} (h : k < 2 ^ n) : (BitVec.ofNat n k).toNat = k := by
  rw [BitVec.toNat_ofNat, Nat.mod_eq_of_lt h]

/-- The block refuses a precision that the assembler does not (44_control.md R161). -/
theorem runWord_config_refused {p : BitVec 6} (hp : p.toNat < 4 ∨ 16 < p.toNat) (mode : Mode) (seed : Word32) (s : State) :
    ∃ t, runWord (encode (.config p mode seed)) s = .next t ∧ EndsInError t 4#8 := by
  have hrefused : ¬ Accepts (.config p mode seed) s := fun ⟨_, hlo, hhi⟩ => by omega
  exact ⟨_, (runWord_of_ok (decodeOfEncodeIsTheCommand _) s).trans (exec_of_refused hrefused), raiseError_endsInError _ s⟩

/-- The expansion of ADD, byte by byte (R68). -/
theorem assemble_add {element : List Nat} (hascii : ∀ c ∈ element, 0x20 ≤ c ∧ c ≤ 0x7E) :
    ∃ (ws : List Word64) (bytes : List Byte), assemble (.add element) = some ws ∧
      ws.map decode
        = Except.ok .hashReset :: (bytes.map (fun b => Except.ok (Instr.hashByte b)) ++ [Except.ok .addElem]) ∧
      bytes.map (fun b => b.toNat) = element := by
  obtain ⟨ws, hws, hdecode⟩ := assemble_of_wellFormed (wellFormed_add_iff.2 hascii)
  refine ⟨ws, element.map (BitVec.ofNat 8), hws, by simp [hdecode, expand, addExpansion], ?_⟩
  rw [List.map_map]
  refine (List.map_congr_left fun c hc => ?_).trans (List.map_id element)
  exact ofNat_toNat_of_lt (by have := (hascii c hc).2; omega)

/-- Settles O51: a line is assembled exactly when its operands fit, and its words are those of its commands. -/
theorem assembledWordsDecodeToTheirCommands : Obligations.AssembledWordsDecodeToTheirCommands := by
  refine ⟨fun p mode seed => ⟨fun hp hseed => ?_, fun hwide => ?_⟩, fun p mode => ⟨fun hp => ?_, fun hwide => ?_⟩,
    fun h => ⟨fun hh => ?_, fun hwide => ?_⟩, fun c => ⟨fun hc => ?_, fun hwide => ?_⟩,
    fun i => ⟨fun hi => ?_, fun hwide => ?_⟩, fun element => ⟨assemble_add, fun ⟨c, hc, hwide⟩ => ?_⟩, ?_⟩
  · obtain ⟨hw, hd⟩ := assemble_of_single (wellFormed_config_iff (mode := mode).2 ⟨hp, hseed⟩) rfl
    refine ⟨_, _, _, hw, hd, ofNat_toNat_of_lt hp, ofNat_toNat_of_lt hseed, fun hbad s => ?_⟩
    exact runWord_config_refused (by rwa [ofNat_toNat_of_lt hp]) mode _ s
  · exact assemble_of_not_wellFormed (wellFormed_config_iff.not.2 (by omega))
  · obtain ⟨hw, hd⟩ := assemble_of_single (wellFormed_new_iff (mode := mode).2 hp) rfl
    exact ⟨_, _, hw, hd, ofNat_toNat_of_lt hp⟩
  · exact assemble_of_not_wellFormed (wellFormed_new_iff.not.2 (Nat.not_lt.2 hwide))
  · obtain ⟨hw, hd⟩ := assemble_of_single (wellFormed_addHash_iff.2 hh) rfl
    exact ⟨_, _, hw, hd, ofNat_toNat_of_lt hh⟩
  · exact assemble_of_not_wellFormed (wellFormed_addHash_iff.not.2 (Nat.not_lt.2 hwide))
  · obtain ⟨hw, hd⟩ := assemble_of_single (wellFormed_hashByte_iff.2 hc) rfl
    exact ⟨_, _, hw, hd, ofNat_toNat_of_lt hc⟩
  · exact assemble_of_not_wellFormed (wellFormed_hashByte_iff.not.2 (Nat.not_lt.2 hwide))
  · obtain ⟨hw, hd⟩ := assemble_of_single (wellFormed_readReg_iff.2 hi) rfl
    exact ⟨_, _, hw, hd, ofNat_toNat_of_lt hi⟩
  · exact assemble_of_not_wellFormed (wellFormed_readReg_iff.not.2 (Nat.not_lt.2 hwide))
  · exact assemble_of_not_wellFormed (wellFormed_add_iff.not.2 fun hascii => by have := hascii c hc; omega)
  · exact ⟨rfl, rfl, rfl, rfl, rfl, rfl, rfl, rfl, rfl, rfl, rfl, rfl, rfl, rfl⟩

end Sys2Proof.Machine
end

section
/-!
PROOFS. One step: reset, waiting, the next command (20_memory.md R43, 70_reset_and_hazards.md R200, R201, R213); the invariant that
every step keeps; and the response that no command reads (10_state.md R31).
-/

namespace Sys2Proof.Machine

/-! ### One step -/

theorem step_of_nil {s : State} (h : s.input = []) : step s = .next s := by
  rw [step, takeInput_nil h, waitForHost_eq]

theorem step_of_reset {s : State} {rest : List HostEvent} (h : s.input = .reset :: rest) :
    step s = .next (hardwareReset { s with input := rest }) := by
  rw [step, takeInput_cons h]

theorem step_of_command {s : State} {w : Word64} {rest : List HostEvent} (h : s.input = .command w :: rest) :
    step s = runWord w { s with input := rest } := by
  rw [step, takeInput_cons h]

/-- What a step can do to the state with the entry taken: nothing, hardware reset, an error, or an accepted command. -/
theorem step_cases {s t : State} (h : step s = .next t) : ∃ rest,
    t = { s with input := rest } ∨ t = hardwareReset { s with input := rest } ∨
    (∃ e, t = raiseError e { s with input := rest }) ∨
    (∃ i, Accepts i { s with input := rest } ∧
      t = respond (resultOf i { s with input := rest }) (effect i { s with input := rest })) := by
  obtain ⟨-, hs⟩ | ⟨rest, -, hs⟩ | ⟨w, rest, i, -, -, hs⟩ | ⟨w, rest, e, -, -, hs⟩ := step_eq s <;> rw [hs] at h
  · cases h
    exact ⟨s.input, .inl rfl⟩
  · cases h
    exact ⟨rest, .inr (.inl rfl)⟩
  · exact ⟨rest, .inr (.inr ((exec_cases h).imp_right fun hacc => ⟨i, hacc⟩))⟩
  · cases h
    exact ⟨rest, .inr (.inr (.inl ⟨_, rfl⟩))⟩

/-- Settles O1: `hardwareReset` writes every control register, and `reg?` answers none on an unconfigured block. -/
theorem hardwareResetLeavesResetValues : Obligations.HardwareResetLeavesResetValues := by
  refine ⟨fun s rest => ⟨_, step_of_reset rfl, rfl, rfl, rfl, rfl, rfl, rfl, rfl, rfl,
    State.reg?_of_unconfigured rfl, rfl, rfl, rfl, fun w i hd => ?_, fun w e hd => ?_⟩,
    rfl, rfl, rfl, rfl, rfl, rfl, rfl, rfl, State.reg?_of_unconfigured rfl⟩
  · exact (step_of_command rfl).trans (runWord_of_ok hd _)
  · exact (step_of_command rfl).trans (runWord_of_error hd _)

/-- Settles O2: with an empty stream a step is `waitForHost`. -/
theorem blockWaitsWithStateHeld : Obligations.BlockWaitsWithStateHeld := ⟨fun _ => step_of_nil, rfl⟩

/-- Settles O3: a step on a command word is `runWord`. -/
theorem stepRunsTheDecodedCommand : Obligations.StepRunsTheDecodedCommand := by
  intro s w rest h
  rw [step_of_command h]
  refine ⟨fun i hd => runWord_of_ok hd _, fun e hd => ⟨_, runWord_of_error hd _, ?_⟩⟩
  cases e <;> rfl

/-- Settles O4: waiting, reset, every command and every rejected word answer a next state. -/
theorem everyStepAnswersANextState : Obligations.EveryStepAnswersANextState := by
  intro s
  obtain ⟨-, hs⟩ | ⟨rest, -, hs⟩ | ⟨w, rest, i, -, -, hs⟩ | ⟨w, rest, e, -, -, hs⟩ := step_eq s
  · exact ⟨_, hs⟩
  · exact ⟨_, hs⟩
  · exact hs ▸ exec_total i _
  · exact ⟨_, hs⟩

/-! ### The invariant -/

/-- An unconfigured block at its reset values, whatever the parameters and the stream. -/
theorem hardwareReset_inv (s : State) : SketchInv (hardwareReset s) where
  memWf := rfl
  unconfigured _ := ⟨rfl, rfl, rfl, rfl, rfl⟩
  precLegal h := absurd h Bool.false_ne_true
  rankBound h := absurd h Bool.false_ne_true
  unusedZero h := absurd h Bool.false_ne_true
  statusLegal := Nat.zero_le 6
  errorResponse h := absurd rfl h

/-- Settles O23: `State.reset` is the state that hardware reset leaves. -/
theorem resetMeetsTheInvariant : Obligations.ResetMeetsTheInvariant := hardwareReset_inv State.reset

section
variable {s : State} (h : SketchInv s)
include h

/-- The invariant does not speak of the host's stream. -/
theorem SketchInv.with_input (rest : List HostEvent) : SketchInv { s with input := rest } :=
  ⟨h.memWf, h.unconfigured, h.precLegal, h.rankBound, h.unusedZero, h.statusLegal, h.errorResponse⟩

theorem SketchInv.raiseError (e : ErrorCode) : SketchInv (raiseError e s) :=
  ⟨h.memWf, h.unconfigured, h.precLegal, h.rankBound, h.unusedZero, code_le_six e, fun _ => ⟨rfl, rfl⟩⟩

theorem SketchInv.respond (r : Word64) : SketchInv (respond r s) :=
  ⟨h.memWf, h.unconfigured, h.precLegal, h.rankBound, h.unusedZero, Nat.zero_le 6, fun hne => absurd rfl hne⟩

/-- A configured block may hold any accumulator, and any array that is canonical, within the rank bound and 0 where unused. -/
theorem SketchInv.with_reg_acc (hc : s.configured = true) {reg : Memory} (acc : Word32) (hwf : reg.wf = true)
    (hrank : ∀ i, i < 2 ^ s.prec.toNat → (reg.read i).toNat ≤ 32 - s.prec.toNat)
    (hunused : ∀ i, 2 ^ s.prec.toNat ≤ i → reg.read i = 0#5) : SketchInv { s with reg := reg, acc := acc } :=
  ⟨hwf, fun hu => (nomatch hc.symm.trans hu), h.precLegal, fun _ => hrank, fun _ => hunused,
    h.statusLegal, h.errorResponse⟩

theorem SketchInv.with_acc (hc : s.configured = true) (acc : Word32) : SketchInv { s with acc := acc } :=
  h.with_reg_acc hc acc h.memWf (h.rankBound hc) (h.unusedZero hc)

theorem SketchInv.with_zeroed (hc : s.configured = true) : SketchInv { s with reg := Memory.zeroed } :=
  h.with_reg_acc hc s.acc Memory.wf_zeroed (fun _ _ => Nat.zero_le _) fun _ _ => rfl

/-- The update keeps every register within the rank bound (10_state.md R24). -/
theorem SketchInv.update_read_le_bound (hc : s.configured = true) (x : Word32) {i : Nat} (hi : i < 2 ^ s.prec.toNat) :
    ((update x s).reg.read i).toNat ≤ 32 - s.prec.toNat := by
  obtain hsel | hother := eq_or_ne i (index x s.prec.toNat)
  · rw [hsel, update_read_index x h.memWf (h.precLegal hc).1]
    exact max_le (h.rankBound hc _ (index_prec_lt x s.prec)) (rank_le x _)
  · rw [update_read_other x hother]
    exact h.rankBound hc i hi

theorem SketchInv.update (hc : s.configured = true) (x acc : Word32) : SketchInv { update x s with acc := acc } :=
  h.with_reg_acc hc acc (wf_raise_index h.memWf (h.precLegal hc).2 x _) (fun _ => h.update_read_le_bound hc x)
    fun i hi => (update_read_unused x hi).trans (h.unusedZero hc i hi)

/-- CONFIG constructs an empty sketch at an accepted precision. -/
theorem SketchInv.config {p : BitVec 6} (hlo : 4 ≤ p.toNat) (hhi : p.toNat ≤ 16) (mode : Mode) (seed : Word32) :
    SketchInv (effect (.config p mode seed) s) where
  memWf := Memory.wf_zeroed
  unconfigured hu := absurd hu.symm Bool.false_ne_true
  precLegal _ := (setWidth_prec_toNat hhi).symm ▸ ⟨hlo, hhi⟩
  rankBound _ _ _ := Nat.zero_le _
  unusedZero _ _ _ := rfl
  statusLegal := h.statusLegal
  errorResponse := h.errorResponse

/-- Every accepted command's effect keeps the invariant; the response is written afterwards. -/
theorem SketchInv.effect {i : Instr} (ha : Accepts i s) : SketchInv (effect i s) := by
  obtain ⟨hc, hown⟩ := ha
  cases i with
  | config p mode seed => exact h.config hown.1 hown.2 mode seed
  | clear => exact h.with_zeroed (hc rfl)
  | addHash x => exact h.update (hc rfl) x s.acc
  | addElem => exact h.update (hc rfl) s.acc 0#32
  | hashByte c => exact h.with_acc (hc rfl) _
  | hashReset => exact h.with_acc (hc rfl) _
  | _ => exact h

end

/-- Settles O24: taking the next entry, hardware reset, an error response and every accepted command's effect keep it. -/
theorem everyStepKeepsTheInvariant : Obligations.EveryStepKeepsTheInvariant := by
  intro s t h hstep
  obtain ⟨rest, rfl | rfl | ⟨e, rfl⟩ | ⟨i, ha, rfl⟩⟩ := step_cases hstep
  · exact h.with_input rest
  · exact hardwareReset_inv _
  · exact (h.with_input rest).raiseError e
  · exact ((h.with_input rest).effect ha).respond _

/-! ### The parameters -/

/-- No step changes the implementation's parameters (00_scope.md R6). -/
theorem step_keeps_parameters {s t : State} (h : step s = .next t) :
    t.lnDepartures = s.lnDepartures ∧ t.packedClear = s.packedClear := by
  obtain ⟨rest, rfl | rfl | ⟨e, rfl⟩ | ⟨i, -, rfl⟩⟩ := step_cases h
  · exact ⟨rfl, rfl⟩
  · exact ⟨rfl, rfl⟩
  · exact ⟨rfl, rfl⟩
  · obtain ⟨hclear, hln, -⟩ := effect_sameHost i { s with input := rest }
    exact ⟨hln, hclear⟩

/-! ### The old response (10_state.md R31, R33) -/

/-- The state with another response and sticky bit. -/
def State.withResponse (s : State) (status : BitVec 8) (result : Word64) (sticky : Bool) : State :=
  { s with lastStatus := status, result := result, stickyErr := sticky }

section
variable (i : Instr) (s : State) (status : BitVec 8) (result : Word64) (sticky : Bool)

theorem effect_withResponse :
    effect i (s.withResponse status result sticky) = (effect i s).withResponse status result sticky := by
  cases i <;> rfl

/-- The sticky bit is bit 16 of the result of STATUS, and no other bit of any result. -/
theorem resultOf_withResponse_getLsbD {k : Nat} (h : i ≠ .status ∨ k ≠ 16) :
    (resultOf i (s.withResponse status result sticky)).getLsbD k = (resultOf i s).getLsbD k := by
  cases i with
  | status =>
    have hk : k ≠ 16 := h.resolve_left fun hne => hne rfl
    simp only [resultOf, getLsbD_statusWord, State.withResponse]
    obtain hlt | hgt := hk.lt_or_gt
    · simp only [if_pos hlt]
    · simp only [if_neg (show ¬ k < 17 by omega)]
  | _ => rfl

end

/-- Settles O31: no check reads the response, no effect carries it into another field. -/
theorem theOldResponseIsNeverRead : Obligations.TheOldResponseIsNeverRead := by
  intro i s status result sticky
  have hguards : SameGuards s (s.withResponse status result sticky) := ⟨rfl, rfl, rfl, rfl⟩
  obtain ⟨e, ht, ht'⟩ | ⟨-, ht, ht'⟩ := exec_pair hguards i
  · exact ⟨_, _, ht, ht', rfl, fun _ _ => rfl⟩
  · rw [effect_withResponse] at ht'
    exact ⟨_, _, ht, ht', rfl, fun k => resultOf_withResponse_getLsbD i s status result sticky⟩

end Sys2Proof.Machine
end

section
/-!
PROOFS. The hash front end over several commands (40_hash.md R82, 30_encoding.md R68), and the two storage layouts (10_state.md R26).
-/

namespace Sys2Proof.Machine

/-! ### HASH_BYTE commands in a row (R82) -/

theorem exec_hashByte {s : State} (hc : s.configured = true) (c : Byte) :
    exec (.hashByte c) s = .next (respond 0#64 { s with acc := hashStep s.acc c }) :=
  exec_of_accepts ⟨fun _ => hc, trivial⟩

theorem exec_hashReset {s : State} (hc : s.configured = true) :
    exec .hashReset s = .next (respond 0#64 { s with acc := 0#32 }) :=
  exec_of_accepts ⟨fun _ => hc, trivial⟩

/-- After a first response the bytes change `ACC` alone. -/
theorem execAll_hashBytes_append {s : State} (hc : s.configured = true) (a : Word32) (element : List Byte)
    (rest : List Instr) :
    execAll (element.map Instr.hashByte ++ rest) (respond 0#64 { s with acc := a })
      = execAll rest (respond 0#64 { s with acc := hashFrom a element }) := by
  induction element generalizing a with
  | nil => rfl
  | cons c cs ih =>
    have hstep := exec_hashByte (s := respond 0#64 { s with acc := a }) hc c
    exact (execAll_cons_of_next hstep _).trans (ih (hashStep a c))

theorem execAll_hashBytes_cons {s : State} (hc : s.configured = true) (c : Byte) (cs : List Byte) :
    execAll ((c :: cs).map Instr.hashByte) s = .next (respond 0#64 { s with acc := hashFrom s.acc (c :: cs) }) := by
  have hrest := execAll_hashBytes_append hc (hashStep s.acc c) cs []
  rw [List.append_nil] at hrest
  exact (execAll_cons_of_next (exec_hashByte hc c) _).trans hrest

/-- Settles O34: the bytes continue the hash in `ACC`, and each command's only other effect is its response. -/
theorem hashBytesAccumulateTheHash : Obligations.HashBytesAccumulateTheHash := by
  intro element s hc
  have hzero : s.acc = 0#32 → hashFrom s.acc element = elementHash element := fun hacc => by rw [hacc, elementHash]
  cases element with
  | nil => exact ⟨s, rfl, ⟨rfl, rfl, rfl, rfl⟩, fun _ => rfl, ⟨rfl, rfl, rfl⟩, rfl, rfl, hzero⟩
  | cons c cs =>
    exact ⟨_, execAll_hashBytes_cons hc c cs, ⟨rfl, rfl, rfl, rfl⟩, fun _ => rfl, ⟨rfl, rfl, rfl⟩, rfl, rfl, hzero⟩

/-- Settles O35: HASH_RESET discards `ACC`, the bytes leave the element's hash in it, and ADD_ELEM updates by it as ADD_HASH
does. -/
theorem addPseudoInstructionAddsTheElement : Obligations.AddPseudoInstructionAddsTheElement := by
  refine ⟨fun element s hc => ⟨_, _, ?_, exec_addHash hc _, rfl⟩, fun p mode => rfl⟩
  calc execAll (addExpansion element) s
    _ = execAll (element.map Instr.hashByte ++ [Instr.addElem]) (respond 0#64 { s with acc := 0#32 }) :=
      execAll_cons_of_next (exec_hashReset hc) _
    _ = execAll [Instr.addElem] (respond 0#64 { s with acc := elementHash element }) :=
      execAll_hashBytes_append hc 0#32 element _
    _ = _ := execAll_cons_of_next (exec_addElem (s := respond 0#64 { s with acc := elementHash element }) hc) []

/-! ### Layouts (R26, D27) -/

theorem packedBit_eq (reg : Memory) (i : Nat) {k : Nat} (hk : k < 5) :
    packedBit reg (5 * i + k) = (reg.read i).getLsbD k := by
  have hdiv : (5 * i + k) / 5 = i := by omega
  have hmod : (5 * i + k) % 5 = k := by omega
  rw [packedBit, hdiv, hmod]

/-- A byte of the Packed layout holds eight bits of the string. -/
theorem packedByte_getLsbD (reg : Memory) (k : Nat) {j : Nat} (hj : j < 8) :
    (packedByte reg k).getLsbD j = packedBit reg (8 * k + j) := by
  simp only [packedByte, BitVec.getLsbD_append]
  interval_cases j <;> simp

/-- Settles O50: the layouts' bits are the registers' by definition, and a bit string is its bytes. -/
theorem layoutsHoldTheRegisters : Obligations.LayoutsHoldTheRegisters := by
  intro reg i k hk
  refine ⟨?_, packedBit_eq reg i hk, ?_⟩
  · rw [standardWord, BitVec.toNat_setWidth_of_le (by decide)]
  · rw [packedByte_getLsbD reg _ (Nat.mod_lt _ (by decide)), Nat.div_add_mod, packedBit_eq reg i hk]

end Sys2Proof.Machine
end

section
/-!
PROOFS. The estimator's exact parts: RNE64 (00_scope.md R8), the harmonic sum and the raw estimate in their ranges (42_estimator.md
R120, R122), and the parameter `LN64` (00_scope.md R6).
-/

namespace Sys2Proof.Machine

/-- Settles O41: `rne64` takes the binade of the fraction and rounds its number of units there. -/
theorem roundingIsToNearestTiesToEven : Obligations.RoundingIsToNearestTiesToEven :=
  fun _ _ hd hrange => rne64_isRne64 hd.ne' hrange

/-! ### The harmonic sum (R120) -/

/-- One register's term, in the units of the sum. -/
theorem term_div (r : Rank) : ((2 ^ (31 - r.toNat) : Nat) : ℚ) / 2 ^ 31 = 1 / 2 ^ r.toNat := by
  have hr := r.isLt
  rw [div_eq_div_iff (by positivity) (by positivity), one_mul]
  exact_mod_cast (pow_add 2 (31 - r.toNat) r.toNat).symm.trans (by congr 1; omega)

theorem harmonicSum_div (reg : Memory) (B : Nat) :
    (harmonicSum reg B : ℚ) / 2 ^ 31 = ∑ i ∈ Finset.range (2 ^ B), (1 : ℚ) / 2 ^ (reg.read i).toNat := by
  rw [harmonicSum_eq_sum, Nat.cast_sum, Finset.sum_div]
  exact Finset.sum_congr rfl fun i _ => term_div (reg.read i)

/-- A term is its largest exactly for a register of 0. -/
theorem term_eq_iff (r : Rank) : 2 ^ (31 - r.toNat) = 2 ^ 31 ↔ r = 0#5 := by
  rw [Nat.pow_right_inj (by decide), ← BitVec.toNat_inj, BitVec.toNat_zero]
  omega

theorem harmonicSum_eq_iff (reg : Memory) (B : Nat) :
    harmonicSum reg B = 2 ^ B * 2 ^ 31 ↔ ∀ i, i < 2 ^ B → reg.read i = 0#5 := by
  have hterm : ∀ i ∈ Finset.range (2 ^ B), 2 ^ (31 - (reg.read i).toNat) ≤ 2 ^ 31 :=
    fun _ _ => Nat.pow_le_pow_right two_pos (Nat.sub_le _ _)
  have hfull : 2 ^ B * 2 ^ 31 = ∑ _i ∈ Finset.range (2 ^ B), 2 ^ 31 := by simp
  rw [harmonicSum_eq_sum, hfull, Finset.sum_eq_sum_iff_of_le hterm]
  simp only [Finset.mem_range, term_eq_iff]

section
variable {reg : Memory} {B : Nat} (hrank : ∀ i, i < 2 ^ B → (reg.read i).toNat ≤ 32 - B)
include hrank

/-- Every term is at least `2^(B-32)`, by the rank bound. -/
theorem le_harmonicSum_of_rank (hB : B ≤ 32) (hpos : 1 ≤ B) : 2 ^ B * 2 ^ (B - 1) ≤ harmonicSum reg B := by
  rw [harmonicSum_eq_sum]
  calc 2 ^ B * 2 ^ (B - 1) = ∑ _i ∈ Finset.range (2 ^ B), 2 ^ (B - 1) := by simp
    _ ≤ _ := Finset.sum_le_sum fun i hi => Nat.pow_le_pow_right two_pos (by
      have := hrank i (Finset.mem_range.1 hi)
      omega)

/-- Every term is a multiple of `2^-28`, the ranks being at most 28. -/
theorem dvd_harmonicSum_of_rank (hB : 4 ≤ B) : 2 ^ 3 ∣ harmonicSum reg B := by
  rw [harmonicSum_eq_sum]
  refine Finset.dvd_sum fun i hi => Nat.pow_dvd_pow 2 ?_
  have := hrank i (Finset.mem_range.1 hi)
  omega

end

/-- Settles O42: the sum term by term, each term between `2^(B-32)` and 1. -/
theorem harmonicSumIsExact : Obligations.HarmonicSumIsExact := by
  intro s hs hc
  obtain ⟨hlo, hB⟩ := hs.precLegal hc
  have hrank := hs.rankBound hc
  have hupper := harmonicSum_le s.reg s.prec.toNat
  have hpow : 2 ^ s.prec.toNat ≤ 2 ^ 16 := Nat.pow_le_pow_right two_pos hB
  exact ⟨harmonicSum_div _ _, dvd_harmonicSum_of_rank hrank hlo, by omega,
    le_harmonicSum_of_rank hrank (by omega) (by omega), hupper, harmonicSum_eq_iff _ _⟩

/-! ### The raw estimate (R122) -/

/-- The fraction that is rounded, as R122 writes it. -/
theorem rawNum_div_rawDen_eq_sum (reg : Memory) (B : Nat) : (rawNum B : ℚ) / rawDen reg B
    = 3248446411222339 / 2 ^ 52 * (2 ^ B) ^ 2 / ∑ i ∈ Finset.range (2 ^ B), (1 : ℚ) / 2 ^ (reg.read i).toNat := by
  rw [rawNum_div_rawDen, ← harmonicSum_div, value64_alpha, div_div_eq_mul_div]

theorem rawNum_div_rawDen_le {reg : Memory} {B : Nat} (hrank : ∀ i, i < 2 ^ B → (reg.read i).toNat ≤ 32 - B)
    (hB : B ≤ 32) (hpos : 1 ≤ B) : (rawNum B : ℚ) / rawDen reg B ≤ value64 Config.alpha * 2 ^ 32 := by
  have hsum : (2 ^ B * 2 ^ (B - 1) : ℚ) ≤ harmonicSum reg B := mod_cast le_harmonicSum_of_rank hrank hB hpos
  have hsquare : (2 ^ B : ℚ) ^ 2 * 2 ^ 31 = 2 ^ 32 * (2 ^ B * 2 ^ (B - 1)) := by
    rw [← pow_mul, ← pow_add, ← pow_add, ← pow_add]
    congr 1
    omega
  rw [rawNum_div_rawDen, div_le_iff₀ (Nat.cast_pos.2 (harmonicSum_pos reg B)), mul_assoc, mul_assoc, hsquare]
  exact mul_le_mul_of_nonneg_left (mul_le_mul_of_nonneg_left hsum (by positivity)) (value64_nonneg _)

/-- Settles O44: one rounding of the fraction of R122, which lies between two values that have an encoding. -/
theorem rawEstimateIsTheRoundedHarmonicMean : Obligations.RawEstimateIsTheRoundedHarmonicMean := by
  intro s hs hc
  obtain ⟨hlo, hB⟩ := hs.precLegal hc
  have hden := rawDen_ne_zero s.reg s.prec.toNat
  have hrange := rawNum_le s.reg hB
  refine ⟨?_, value64_alpha ▸ le_value64_rawEstimate s.reg hB, ?_⟩
  · have hround := rne64_isRne64_rat hden hrange
    rw [rawNum_div_rawDen_eq_sum, ← rawEstimate_eq] at hround
    push_cast at hround
    exact hround
  · have hrep : Representable64 (3248446411222339 / 2 ^ 52 * 2 ^ 32) := by
      have h := representable64_scaled (k := 3248446411222339) (i := 32) (j := 52) (by norm_num) (by norm_num) (by norm_num)
      rwa [div_mul_eq_mul_div]
    exact value64_rne64_le hden hrange hrep
      (value64_alpha ▸ rawNum_div_rawDen_le (hs.rankBound hc) (by omega) (by omega))

/-! ### The parameter `LN64` (R6, R127) -/

/-- The parameter that departs to `ln` at each argument of a list. -/
def departuresTo (ln : Word64 → Word64) (arguments : List Word64) : LnDepartures := arguments.map fun q => (q, ln q)

theorem lnOf_departuresTo (ln : Word64 → Word64) {arguments : List Word64} {q : Word64} (hq : q ∈ arguments) :
    lnOf (departuresTo ln arguments) q = ln q := by
  induction arguments with
  | nil => exact absurd hq List.not_mem_nil
  | cons a rest ih =>
    obtain rfl | hne := eq_or_ne q a
    · exact lnOf_self q _ _
    · exact (lnOf_of_ne hne _ _).trans (ih ((List.mem_cons.1 hq).resolve_left hne))

/-- The arguments `RNE64(2^B / V)` that ESTIMATE can form at precisions up to 16 (R123). -/
def estimatorArguments : List Word64 :=
  (List.range 17).flatMap fun B => (List.range (2 ^ B + 1)).map fun V => rne64 (2 ^ B) V

theorem mem_estimatorArguments {B V : Nat} (hB : B ≤ 16) (hV : V ≤ 2 ^ B) : rne64 (2 ^ B) V ∈ estimatorArguments :=
  List.mem_flatMap.2
    ⟨B, List.mem_range.2 (Nat.lt_succ_of_le hB), List.mem_map_of_mem (List.mem_range.2 (Nat.lt_succ_of_le hV))⟩

/-- The estimate asks its logarithm for one argument at most. -/
theorem estimateWith_congr_ln {ln ln' : Word64 → Word64} {reg : Memory} {B : Nat}
    (h : ln (rne64 (2 ^ B) (zeroCount reg B)) = ln' (rne64 (2 ^ B) (zeroCount reg B))) :
    estimateWith ln reg B = estimateWith ln' reg B := by
  rw [estimateWith_eq, estimateWith_eq, linearCounting, linearCounting, regsInUse, h]

/-- Settles O53: the estimator forms finitely many arguments, so a list of departures can give any function's value at each. -/
theorem everyLogarithmIsAValueOfTheParameter : Obligations.EveryLogarithmIsAValueOfTheParameter := by
  refine ⟨fun s t => step_keeps_parameters, fun ln => ⟨departuresTo ln estimatorArguments, fun s hc hB => ?_⟩⟩
  refine ⟨_, exec_estimate (s := { s with lnDepartures := _ }) hc, rfl, estimateWith_congr_ln ?_⟩
  exact lnOf_departuresTo ln (mem_estimatorArguments hB (zeroCount_le _ _))

end Sys2Proof.Machine
end

section
/-!
PROOFS. The two bounds of the logarithm (42_estimator.md R127, notes/assumptions/5.md): Horner's sum with rounded divisions against
the series of `2 * artanh z`, and the bounds of `ln q` that follow.
-/

namespace Sys2Proof.Machine

/-! ### Horner's sum against the first terms of the series -/

/-- `Σ z^(2j) / (2(k+j)+1)` over `n` terms, in units of `2^-128`, without rounding. -/
noncomputable def artanhPartial (z : ℝ) (n k : Nat) : ℝ :=
  2 ^ 128 * ∑ j ∈ Finset.range n, (z ^ 2) ^ j / (2 * (k + j : Nat) + 1)

theorem artanhPartial_succ (z : ℝ) (n k : Nat) :
    artanhPartial z (n + 1) k = 2 ^ 128 / (2 * k + 1) + artanhPartial z n (k + 1) * z ^ 2 := by
  rw [artanhPartial, artanhPartial, Finset.sum_range_succ', mul_add, add_comm, mul_assoc, Finset.sum_mul]
  congr 1
  · rw [pow_zero, mul_one_div, add_zero]
  · refine congrArg (2 ^ 128 * ·) (Finset.sum_congr rfl fun j _ => ?_)
    rw [pow_succ, div_mul_eq_mul_div, add_right_comm k 1 j, add_assoc k j 1]

theorem lt_natCast_div_add_one (n d : Nat) : (n : ℝ) / d < (n / d : Nat) + 1 := by
  rw [← Nat.floor_div_eq_div (K := ℝ)]
  exact Nat.lt_floor_add_one _

/-- A lower bound of `2 * artanh (a/b)` from `n` terms, in units of `2^-128`; the model takes 40. -/
def artanhLowTerms (n a b : Nat) : Nat := 2 * a * artanhHorner a b n 0 / b

theorem artanhLow_eq (a b : Nat) : artanhLow a b = artanhLowTerms 40 a b := rfl

section
variable {a b : Nat} (hb : 0 < b) (h : 3 * a ≤ b)
include hb h

theorem ratio_le : (a : ℝ) / b ≤ 1 / 3 := by
  rw [div_le_div_iff₀ (Nat.cast_pos.2 hb) (by norm_num)]
  exact_mod_cast (by omega : a * 3 ≤ 1 * b)

theorem ratio_sq_le : ((a : ℝ) / b) ^ 2 ≤ 1 / 9 := by
  calc ((a : ℝ) / b) ^ 2 ≤ (1 / 3) ^ 2 := pow_le_pow_left₀ (by positivity) (ratio_le hb h) 2
    _ = 1 / 9 := by norm_num

/-- Each of Horner's steps lacks less than two units for its two divisions, and a ninth of what the step before lacked. -/
theorem artanhHorner_bounds (n k : Nat) :
    (artanhHorner a b n k : ℝ) ≤ artanhPartial (a / b) n k ∧
    artanhPartial (a / b) n k ≤ artanhHorner a b n k + 9 / 4 := by
  induction n generalizing k with
  | zero =>
    rw [artanhHorner, artanhPartial, Finset.sum_range_zero, mul_zero, Nat.cast_zero]
    norm_num
  | succ n ih =>
    obtain ⟨hlow, hhigh⟩ := ih (k + 1)
    have hsq := ratio_sq_le hb h
    have hsq0 := sq_nonneg ((a : ℝ) / b)
    have hterm : ((1 <<< 128 : Nat) : ℝ) / (2 * k + 1 : Nat) = 2 ^ 128 / (2 * k + 1) := by
      rw [Nat.one_shiftLeft, Nat.cast_pow, Nat.cast_ofNat, Nat.cast_add, Nat.cast_mul, Nat.cast_ofNat, Nat.cast_one]
    have hproduct : ((artanhHorner a b n (k + 1) * (a * a) : Nat) : ℝ) / (b * b : Nat)
        = artanhHorner a b n (k + 1) * ((a : ℝ) / b) ^ 2 := by
      push_cast
      ring
    have hterm_low := Nat.cast_div_le (α := ℝ) (m := 1 <<< 128) (n := 2 * k + 1)
    have hterm_high := lt_natCast_div_add_one (1 <<< 128) (2 * k + 1)
    have hproduct_low := Nat.cast_div_le (α := ℝ) (m := artanhHorner a b n (k + 1) * (a * a)) (n := b * b)
    have hproduct_high := lt_natCast_div_add_one (artanhHorner a b n (k + 1) * (a * a)) (b * b)
    rw [hterm] at hterm_low hterm_high
    rw [hproduct] at hproduct_low hproduct_high
    have hlow_sq := mul_le_mul_of_nonneg_right hlow hsq0
    have hhigh_sq := mul_le_mul_of_nonneg_right hhigh hsq0
    have hcast : (artanhHorner a b (n + 1) k : ℝ)
        = ((1 <<< 128 / (2 * k + 1) : Nat) : ℝ) + ((artanhHorner a b n (k + 1) * (a * a) / (b * b) : Nat) : ℝ) :=
      Nat.cast_add _ _
    rw [artanhPartial_succ, hcast]
    constructor <;> linarith

end

/-! ### The series -/

/-- The value of the series: `2 * artanh z`. -/
noncomputable def logRatio (z : ℝ) : ℝ := Real.log (1 + z) - Real.log (1 - z)

/-- A term of the series. -/
noncomputable def artanhTerm (z : ℝ) (j : Nat) : ℝ := 2 * (1 / (2 * j + 1)) * z ^ (2 * j + 1)

theorem two_mul_artanhPartial (z : ℝ) (n : Nat) :
    2 * z * artanhPartial z n 0 = 2 ^ 128 * ∑ j ∈ Finset.range n, artanhTerm z j := by
  rw [artanhPartial, mul_left_comm, Finset.mul_sum]
  refine congrArg (2 ^ 128 * ·) (Finset.sum_congr rfl fun j _ => ?_)
  rw [artanhTerm, zero_add, pow_succ z (2 * j), pow_mul]
  ring

section
variable {z : ℝ} (h0 : 0 ≤ z) (hz : z ≤ 1 / 3)
include h0

theorem artanhTerm_nonneg (j : Nat) : 0 ≤ artanhTerm z j := by
  unfold artanhTerm
  positivity

include hz

theorem hasSum_logRatio : HasSum (artanhTerm z) (logRatio z) :=
  Real.hasSum_log_sub_log_of_abs_lt_one (by rw [abs_of_nonneg h0]; linarith)

theorem artanhPartial_le_logRatio (n : Nat) : 2 * z * artanhPartial z n 0 ≤ 2 ^ 128 * logRatio z := by
  rw [two_mul_artanhPartial]
  exact mul_le_mul_of_nonneg_left (sum_le_hasSum _ (fun j _ => artanhTerm_nonneg h0 j) (hasSum_logRatio h0 hz))
    (by positivity)

/-- From term `n` on the terms stay below a geometric series with ratio `1/9`. -/
theorem artanhTerm_add_le (n j : Nat) :
    artanhTerm z (j + n) ≤ 2 * (1 / (2 * n + 1)) * z ^ (2 * n + 1) * (1 / 9) ^ j := by
  have hsq : z ^ 2 ≤ 1 / 9 := by nlinarith
  have hpow : z ^ (2 * (j + n) + 1) = z ^ (2 * n + 1) * (z ^ 2) ^ j := by rw [← pow_mul, ← pow_add]; congr 1; omega
  have hn : (n : ℝ) ≤ (j + n : Nat) := mod_cast Nat.le_add_left n j
  rw [artanhTerm, hpow, ← mul_assoc]
  gcongr

theorem logRatio_le_artanhPartial (n : Nat) :
    2 ^ 128 * logRatio z ≤ 2 * z * artanhPartial z n 0 + 2 ^ 128 * (z ^ (2 * n + 1) * 9 / (4 * (2 * n + 1))) := by
  have htail : HasSum (fun j => artanhTerm z (j + n)) (logRatio z - ∑ j ∈ Finset.range n, artanhTerm z j) :=
    (hasSum_nat_add_iff n).2 (by rw [sub_add_cancel]; exact hasSum_logRatio h0 hz)
  have hgeometric := (hasSum_geometric_of_lt_one (r := 1 / 9) (by norm_num) (by norm_num)).mul_left
    (2 * (1 / (2 * n + 1)) * z ^ (2 * n + 1))
  have hle := hasSum_le (artanhTerm_add_le h0 hz n) htail hgeometric
  rw [two_mul_artanhPartial, ← mul_add]
  refine mul_le_mul_of_nonneg_left ((sub_le_iff_le_add'.1 hle).trans_eq ?_) (by positivity)
  rw [add_right_inj]
  field_simp
  ring

end

section
variable {a b : Nat} (hb : 0 < b) (h : 3 * a ≤ b)
include hb h

/-- What the bound of `n` terms can lack: the roundings, and the terms cut off. -/
theorem artanhLowTerms_bounds (n : Nat) :
    (artanhLowTerms n a b : ℝ) ≤ 2 ^ 128 * logRatio (a / b) ∧
    2 ^ 128 * logRatio (a / b)
      ≤ artanhLowTerms n a b + (5 / 2 + 2 ^ 128 * (((a : ℝ) / b) ^ (2 * n + 1) * 9 / (4 * (2 * n + 1)))) := by
  have h0 : (0 : ℝ) ≤ (a : ℝ) / b := by positivity
  have hz := ratio_le hb h
  obtain ⟨hlow, hhigh⟩ := artanhHorner_bounds hb h n 0
  have hquot : ((2 * a * artanhHorner a b n 0 : Nat) : ℝ) / b = 2 * ((a : ℝ) / b) * artanhHorner a b n 0 := by
    push_cast
    ring
  have hfloor_low := Nat.cast_div_le (α := ℝ) (m := 2 * a * artanhHorner a b n 0) (n := b)
  have hfloor_high := lt_natCast_div_add_one (2 * a * artanhHorner a b n 0) b
  rw [hquot] at hfloor_low hfloor_high
  have hlow_z := mul_le_mul_of_nonneg_left hlow (mul_nonneg two_pos.le h0)
  have hhigh_z := mul_le_mul_of_nonneg_left hhigh (mul_nonneg two_pos.le h0)
  have hseries_low := artanhPartial_le_logRatio h0 hz n
  have hseries_high := logRatio_le_artanhPartial h0 hz n
  rw [artanhLowTerms]
  constructor <;> linarith

end

/-- The model's 40 terms lack less than 3 units. -/
theorem artanhLow_bounds {a b : Nat} (hb : 0 < b) (h : 3 * a ≤ b) :
    (artanhLow a b : ℝ) ≤ 2 ^ 128 * logRatio (a / b) ∧ 2 ^ 128 * logRatio (a / b) ≤ artanhLow a b + 3 := by
  obtain ⟨hlow, hhigh⟩ := artanhLowTerms_bounds hb h 40
  have hpow : ((a : ℝ) / b) ^ (2 * 40 + 1) ≤ (1 / 3) ^ (2 * 40 + 1) :=
    pow_le_pow_left₀ (by positivity) (ratio_le hb h) _
  rw [artanhLow_eq]
  refine ⟨hlow, hhigh.trans ?_⟩
  norm_num at hpow ⊢
  linarith

/-! ### The bounds of `ln q` -/

/-- The series at `(s - c)/(s + c)` is the logarithm of `s / c`. -/
theorem logRatio_eq_log {s c : ℝ} (hs : 0 < s) (hc : 0 < c) : logRatio ((s - c) / (s + c)) = Real.log (s / c) := by
  have hsum : s + c ≠ 0 := (add_pos hs hc).ne'
  have hplus : 1 + (s - c) / (s + c) = 2 * s / (s + c) := by field_simp; ring
  have hminus : 1 - (s - c) / (s + c) = 2 * c / (s + c) := by field_simp; ring
  rw [logRatio, hplus, hminus, ← Real.log_div (by positivity) (by positivity), div_div_div_cancel_right₀ hsum,
    mul_div_mul_left _ _ two_ne_zero]

theorem logRatio_one_third : logRatio ((1 : Nat) / (3 : Nat)) = Real.log 2 := by
  rw [← div_one (2 : ℝ), ← logRatio_eq_log two_pos one_pos]
  norm_num

theorem two_pow_mul_unit64_1023 : 2 ^ 52 * unit64 1023 = 1 := (unit64_add 1023 52).symm.trans unit64_1075

theorem unit64_1023 : unit64 1023 = 1 / 2 ^ 52 :=
  (eq_div_iff (by positivity)).2 ((mul_comm _ _).trans two_pow_mul_unit64_1023)

section
variable {q : Word64} (h : 1 ≤ value64 q)
include h

theorem le_effExp_of_one_le : 1023 ≤ effExp q := by
  by_contra! hlt
  exact h.not_gt ((value64_lt_of_effExp_lt hlt).trans_eq two_pow_mul_unit64_1023)

theorem effExp_of_one_le : effExp q = 1023 + lnExp q := by
  have hexp := le_effExp_of_one_le h
  unfold lnExp
  unfold effExp at hexp ⊢
  omega

theorem le_significand_of_one_le : 2 ^ 52 ≤ significand q :=
  le_significand_of_effExp (by have := le_effExp_of_one_le h; omega)

/-- `q = M * 2^E`. -/
theorem value64_of_one_le : value64 q = significand q / 2 ^ 52 * 2 ^ lnExp q := by
  rw [value64_eq, effExp_of_one_le h, unit64_add, unit64_1023]
  ring

theorem log_value64 : Real.log ((value64 q : ℚ) : ℝ) = lnExp q * Real.log 2 + Real.log ((significand q : ℝ) / 2 ^ 52) := by
  have hsig : (0 : ℝ) < significand q := Nat.cast_pos.2 (by have := le_significand_of_one_le h; omega)
  rw [value64_of_one_le h]
  push_cast
  rw [Real.log_mul (by positivity) (by positivity), Real.log_pow, add_comm]

/-- The series for the significand. -/
theorem artanhLow_significand_bounds :
    (artanhLow (significand q - 2 ^ 52) (significand q + 2 ^ 52) : ℝ)
      ≤ 2 ^ 128 * Real.log ((significand q : ℝ) / 2 ^ 52) ∧
    2 ^ 128 * Real.log ((significand q : ℝ) / 2 ^ 52)
      ≤ artanhLow (significand q - 2 ^ 52) (significand q + 2 ^ 52) + (if significand q = 2 ^ 52 then 0 else 3 : Nat) := by
  have hsig := le_significand_of_one_le h
  have hlt := significand_lt q
  obtain ⟨hlow, hhigh⟩ := artanhLow_bounds (a := significand q - 2 ^ 52) (b := significand q + 2 ^ 52) (by omega) (by omega)
  have hpos : (0 : ℝ) < significand q := Nat.cast_pos.2 (by omega)
  rw [Nat.cast_sub hsig, Nat.cast_add, Nat.cast_pow, Nat.cast_ofNat, logRatio_eq_log hpos (by positivity)] at hlow hhigh
  refine ⟨hlow, ?_⟩
  split
  · next hone =>
    rw [hone, Nat.sub_self, artanhLow_zero, Nat.cast_pow, Nat.cast_ofNat, div_self (by positivity), Real.log_one]
    simp
  · exact hhigh

/-- The model's two bounds (notes/assumptions/5.md). -/
theorem lnLow_lnHigh_bounds :
    (lnLow q : ℝ) ≤ 2 ^ 128 * Real.log ((value64 q : ℚ) : ℝ) ∧
    2 ^ 128 * Real.log ((value64 q : ℚ) : ℝ) ≤ lnHigh q := by
  obtain ⟨htwo_low, htwo_high⟩ := artanhLow_bounds (a := 1) (b := 3) (by norm_num) le_rfl
  obtain ⟨hsig_low, hsig_high⟩ := artanhLow_significand_bounds h
  rw [logRatio_one_third] at htwo_low htwo_high
  have hexp : (0 : ℝ) ≤ lnExp q := Nat.cast_nonneg _
  have hlow := mul_le_mul_of_nonneg_left htwo_low hexp
  have hhigh := mul_le_mul_of_nonneg_left htwo_high hexp
  rw [log_value64 h, lnHigh, lnSlack, lnLow]
  push_cast [-Nat.cast_ite]
  constructor <;> linarith

end

end Sys2Proof.Machine
end

section
/-!
PROOFS. What lies between two numbers of one rounding has that rounding (00_scope.md R8); and from the bounds of the logarithm, that
`LN64` is within one unit in the last place and correctly rounded where it is certified (42_estimator.md R127).
-/

namespace Sys2Proof.Machine

/-! ### Nearest values -/

/-- Of two numbers the smaller is the nearer one up to their midpoint. -/
theorem abs_sub_le_abs_sub_iff_of_lt {a c : ℝ} (h : a < c) (x : ℝ) : |a - x| ≤ |c - x| ↔ 2 * x ≤ a + c := by
  rw [← sq_le_sq]
  constructor <;> intro hle <;> nlinarith

/-- The larger one is the nearer from there on. -/
theorem abs_sub_le_abs_sub_iff_of_gt {a c : ℝ} (h : c < a) (x : ℝ) : |a - x| ≤ |c - x| ↔ a + c ≤ 2 * x := by
  rw [← sq_le_sq]
  constructor <;> intro hle <;> nlinarith

/-- Two different numbers are equally near at their midpoint alone. -/
theorem abs_sub_eq_abs_sub_iff {a c : ℝ} (h : a ≠ c) (x : ℝ) : |a - x| = |c - x| ↔ 2 * x = a + c := by
  obtain hlt | hgt := h.lt_or_gt
  · rw [le_antisymm_iff, abs_sub_le_abs_sub_iff_of_lt hlt, abs_sub_le_abs_sub_iff_of_gt hlt, add_comm c a, ← le_antisymm_iff]
  · rw [le_antisymm_iff, abs_sub_le_abs_sub_iff_of_gt hgt, abs_sub_le_abs_sub_iff_of_lt hgt, add_comm c a, and_comm,
      ← le_antisymm_iff]

theorem real_value64_ne {v w : Word64} (hv : Finite64 v) (hw : Finite64 w) (hne : v ≠ w) :
    ((value64 w : ℚ) : ℝ) ≠ ((value64 v : ℚ) : ℝ) :=
  fun heq => hne (value64_injective hv hw (Rat.cast_injective heq).symm)

/-- Where both ends of an interval round to a value, each number between them does. -/
theorem IsRne64.of_between {w : Word64} {x y z : ℝ} (hx : IsRne64 w x) (hz : IsRne64 w z) (hxy : x ≤ y) (hyz : y ≤ z) :
    IsRne64 w y := by
  refine ⟨hx.1, fun v hv => ?_⟩
  obtain rfl | hne := eq_or_ne v w
  · exact ⟨le_rfl, fun hne => absurd rfl hne⟩
  obtain ⟨hxle, hxtie⟩ := hx.2 v hv
  obtain ⟨hzle, hztie⟩ := hz.2 v hv
  have hvalue := real_value64_ne hv hx.1 hne
  rw [abs_sub_eq_abs_sub_iff hvalue] at hxtie hztie ⊢
  obtain hlt | hgt := hvalue.lt_or_gt
  · rw [abs_sub_le_abs_sub_iff_of_lt hlt] at hxle hzle ⊢
    exact ⟨by linarith, fun _ htie => hztie hne (by linarith)⟩
  · rw [abs_sub_le_abs_sub_iff_of_gt hgt] at hxle hzle ⊢
    exact ⟨by linarith, fun _ htie => hxtie hne (by linarith)⟩

/-! ### How far a rounded value is from its fraction -/

section
variable {n d : Nat} (hd : d ≠ 0)
include hd

/-- A fraction as a number of units of its binade. -/
theorem div_eq_units (n e : Nat) :
    (n : ℝ) / d = (n * 2 ^ 1075 : Nat) / (d * 2 ^ e : Nat) * ((unit64 e : ℚ) : ℝ) := by
  rw [unit64, Nat.cast_mul, Nat.cast_mul, Nat.cast_pow, Nat.cast_pow, Nat.cast_ofNat, Rat.cast_div, Rat.cast_pow,
    Rat.cast_pow, Rat.cast_ofNat]
  field_simp

variable (hn : n ≠ 0) (hrange : n ≤ d * 2 ^ 1023)
include hn hrange

/-- A rounded value is within half a unit of its fraction's binade. -/
theorem rne64_dist :
    |((value64 (rne64 n d) : ℚ) : ℝ) - (n : ℝ) / d| ≤ ((unit64 (binade n d) : ℚ) : ℝ) / 2 := by
  obtain ⟨henc, heq⟩ := rne64_eq_encode64 hn hd hrange
  have hunit : (0 : ℝ) < (unit64 (binade n d) : ℚ) := Rat.cast_pos.2 (unit64_pos _)
  have hdist := (roundHalfEven_dist (n * 2 ^ 1075) (d := d * 2 ^ binade n d) (by positivity)).1
  rw [heq, value64_encode64 henc, Rat.cast_mul, Rat.cast_natCast, div_eq_units hd n (binade n d), ← sub_mul, abs_mul,
    abs_of_pos hunit]
  linarith [mul_le_mul_of_nonneg_right hdist hunit.le]

/-- Rounding may carry into the next binade. -/
theorem binade_le_effExp : binade n d ≤ effExp (rne64 n d) := by
  obtain ⟨henc, heq⟩ := rne64_eq_encode64 hn hd hrange
  rw [heq]
  obtain hlt | hcarry := henc.significandLe.lt_or_eq
  · exact (encode64_fields henc hlt).1.ge
  · rw [hcarry] at henc ⊢
    rw [encode64_carry henc.expPos, (encode64_fields henc.carry (by omega)).1]
    exact Nat.le_succ _

end

/-- Above the lowest binade a fraction is at least `2^52` units. -/
theorem two_pow_mul_unit64_le {n d : Nat} (hn : n ≠ 0) (hd : d ≠ 0) (h : binade n d ≠ 1) :
    2 ^ 52 * unit64 (binade n d) ≤ (n : ℚ) / d := by
  have hle : (2 ^ 52 * (d * 2 ^ binade n d) : ℚ) ≤ n * 2 ^ 1075 := mod_cast le_of_binade_ne_one hn h
  rw [unit64, ← mul_div_assoc, div_le_div_iff₀ (by positivity) (Nat.cast_pos.2 (Nat.pos_of_ne_zero hd))]
  calc _ = (2 ^ 52 * (d * 2 ^ binade n d) : ℚ) := by ring
    _ ≤ _ := hle

/-- Every fraction is less than `2^53` units. -/
theorem lt_two_pow_mul_unit64 (n : Nat) {d : Nat} (hd : d ≠ 0) : (n : ℚ) / d < 2 ^ 53 * unit64 (binade n d) := by
  have hlt : (n * 2 ^ 1022 : ℚ) < d * 2 ^ binade n d := mod_cast lt_binade n hd
  rw [unit64, ← mul_div_assoc, div_lt_div_iff₀ (Nat.cast_pos.2 (Nat.pos_of_ne_zero hd)) (by positivity)]
  calc (n * 2 ^ 1075 : ℚ) = 2 ^ 53 * (n * 2 ^ 1022) := by rw [mul_left_comm, ← pow_add]
    _ < 2 ^ 53 * (d * 2 ^ binade n d) := by gcongr
    _ = _ := by ring

/-! ### The size of the logarithm's bounds -/

section
variable {q : Word64} (h : value64 q ≤ 65536)
include h

theorem lnSlack_le : lnSlack q ≤ 51 := by
  have hexp := lnExp_le h
  rw [lnSlack]
  split <;> omega

theorem lnHigh_range : lnHigh q ≤ 2 ^ 128 * 2 ^ 1023 := by
  refine range_of_le (j := 5) (by norm_num) ?_
  have := lnLow_le h
  have := artanhLow_one_three_le
  have := lnSlack_le h
  rw [lnHigh]
  omega

variable (h1 : 1 ≤ value64 q)
include h1

/-- A certified logarithm is correctly rounded: the real logarithm lies between two numbers of one rounding. -/
theorem ln64_isRne64_of_certified (hcert : lnCertified q = true) : IsRne64 (ln64 q) (Real.log ((value64 q : ℚ) : ℝ)) := by
  have hround : ln64 q = rne64 (lnHigh q) (2 ^ 128) := (of_decide_eq_true hcert).trans (congrArg (rne64 _) (Nat.one_shiftLeft _))
  have hlow := rne64_isRne64 (by positivity) (lnLow_range h)
  have hhigh := rne64_isRne64 (by positivity) (lnHigh_range h)
  rw [← ln64_eq, Nat.cast_pow, Nat.cast_ofNat] at hlow
  rw [← hround, Nat.cast_pow, Nat.cast_ofNat] at hhigh
  obtain ⟨hlnLow, hlnHigh⟩ := lnLow_lnHigh_bounds h1
  exact hlow.of_between hhigh ((div_le_iff₀' (by positivity)).2 hlnLow) ((le_div_iff₀' (by positivity)).2 hlnHigh)

end

theorem natCast_add_one_le {m n : Nat} (h : (m : ℚ) < n) : (m + 1 : ℚ) ≤ n := mod_cast h

/-- A unit times a power of two, as a power of two. -/
theorem two_pow_mul_unit64_eq_zpow (a e : Nat) :
    (2 : ℝ) ^ a * ((unit64 e : ℚ) : ℝ) = 2 ^ ((a : ℤ) + e - (1075 : Nat)) := by
  rw [unit64, Rat.cast_div, Rat.cast_pow, Rat.cast_pow, Rat.cast_ofNat, zpow_sub₀ two_ne_zero, zpow_add₀ two_ne_zero,
    zpow_natCast, zpow_natCast, zpow_natCast, mul_div_assoc]

/-- A number of at least `2^52` units of some binade has a binade with no smaller unit. -/
theorem unit64_le_zpow_log {e : Nat} {x : ℝ} (hx : 0 < x) (h : 2 ^ 52 * ((unit64 e : ℚ) : ℝ) ≤ x) :
    ((unit64 e : ℚ) : ℝ) ≤ 2 ^ (Int.log 2 x - 52) := by
  have hlog : (2 : ℝ) ^ 52 * ((unit64 e : ℚ) : ℝ) ≤ 2 ^ Int.log 2 x := by
    rw [two_pow_mul_unit64_eq_zpow] at h ⊢
    exact zpow_le_zpow_right₀ one_le_two ((Int.zpow_le_iff_le_log (b := 2) one_lt_two hx).1 (by rwa [Nat.cast_ofNat]))
  rw [zpow_sub₀ two_ne_zero, le_div_iff₀ (by positivity), mul_comm]
  exact hlog

/-- The unit in the last place at the binade of the lower bound. -/
def lnUnit (q : Word64) : ℚ := unit64 (binade (lnLow q) (2 ^ 128))

section
variable {q : Word64} (h1 : 1 < value64 q)
include h1

/-- The least argument above 1 is `1 + 2^-52`. -/
theorem one_add_le_value64 : 1 + 1 / 2 ^ 52 ≤ value64 q := by
  have hvalue := value64_of_one_le h1.le
  have hsig : (2 ^ 52 : ℚ) ≤ significand q := mod_cast le_significand_of_one_le h1.le
  obtain hzero | hpos := (lnExp q).eq_zero_or_pos
  · rw [hzero, pow_zero, mul_one] at hvalue
    rw [hvalue, lt_div_iff₀ (by positivity), one_mul] at h1
    have hcast : ((2 ^ 52 : Nat) : ℚ) = 2 ^ 52 := by rw [Nat.cast_pow, Nat.cast_ofNat]
    have hnext := natCast_add_one_le (hcast.trans_lt h1)
    rw [hcast] at hnext
    rw [hvalue, le_div_iff₀ (by positivity)]
    linarith
  · have htwo : (2 : ℚ) ≤ 2 ^ lnExp q := le_self_pow₀ one_le_two hpos.ne'
    have hone : (1 : ℚ) ≤ significand q / 2 ^ 52 := (le_div_iff₀ (by positivity)).2 ((one_mul _).trans_le hsig)
    have hle : (2 : ℚ) ^ lnExp q ≤ value64 q := hvalue ▸ le_mul_of_one_le_left (by positivity) hone
    linarith

theorem le_log_value64 : 1 / 2 ^ 53 ≤ Real.log ((value64 q : ℚ) : ℝ) := by
  have hq := Rat.cast_le (K := ℝ).2 (one_add_le_value64 h1)
  push_cast at hq
  calc (1 / 2 ^ 53 : ℝ) ≤ 1 - (1 + 1 / 2 ^ 52)⁻¹ := by norm_num
    _ ≤ Real.log (1 + 1 / 2 ^ 52) := Real.one_sub_inv_le_log_of_pos (by positivity)
    _ ≤ _ := Real.log_le_log (by positivity) hq

variable (h : value64 q ≤ 65536)
include h

theorem le_lnLow : 2 ^ 74 ≤ lnLow q := by
  have hlog := le_log_value64 h1
  have hhigh := (lnLow_lnHigh_bounds h1.le).2
  have hslack := lnSlack_le h
  have hlnHigh : (2 ^ 75 : ℝ) ≤ lnHigh q := by linarith
  have hlnHigh' : 2 ^ 75 ≤ lnHigh q := by exact_mod_cast hlnHigh
  rw [lnHigh] at hlnHigh'
  omega

theorem lnLow_ne_zero : lnLow q ≠ 0 := by
  have := le_lnLow h1 h
  omega

/-- The slack is small against half a unit: the lower bound is at least `2^-54`, and less than `2^53` units. -/
theorem slack_lt_half_unit : 51 / 2 ^ 128 < lnUnit q / 2 := by
  have hlow : (2 ^ 74 : ℚ) ≤ lnLow q := by exact_mod_cast le_lnLow h1 h
  have hunits := lt_two_pow_mul_unit64 (lnLow q) (d := 2 ^ 128) (by positivity)
  rw [← lnUnit, Nat.cast_pow, Nat.cast_ofNat, div_lt_iff₀ (by positivity)] at hunits
  linarith

/-- Half a unit for the rounding, and the slack. -/
theorem ln64_dist : |((value64 (ln64 q) : ℚ) : ℝ) - Real.log ((value64 q : ℚ) : ℝ)| < lnUnit q := by
  have hround := rne64_dist (by positivity) (lnLow_ne_zero h1 h) (lnLow_range h)
  rw [← ln64_eq, ← lnUnit, Nat.cast_pow, Nat.cast_ofNat] at hround
  obtain ⟨hlow, hhigh⟩ := lnLow_lnHigh_bounds h1.le
  have hslack : (lnHigh q : ℝ) ≤ lnLow q + 51 := by
    have := lnSlack_le h
    exact_mod_cast (by rw [lnHigh]; omega : lnHigh q ≤ lnLow q + 51)
  have hhalf := Rat.cast_lt (K := ℝ).2 (slack_lt_half_unit h1 h)
  have hlow' : (lnLow q : ℝ) / 2 ^ 128 ≤ Real.log ((value64 q : ℚ) : ℝ) := (div_le_iff₀' (by positivity)).2 hlow
  have hhigh' : Real.log ((value64 q : ℚ) : ℝ) ≤ (lnLow q : ℝ) / 2 ^ 128 + 51 / 2 ^ 128 := by
    rw [← add_div, le_div_iff₀' (by positivity)]
    exact hhigh.trans hslack
  push_cast at hhalf
  rw [abs_le] at hround
  rw [abs_lt]
  constructor <;> linarith

/-- The rounded logarithm's unit is at least the bound's. -/
theorem lnUnit_le_ulp64 : lnUnit q ≤ ulp64 (ln64 q) := by
  have hexp := binade_le_effExp (by positivity) (lnLow_ne_zero h1 h) (lnLow_range h)
  rw [← ln64_eq] at hexp
  exact unit64_mono hexp

/-- So is the unit of the binade of the real logarithm, which is no smaller than the bound. -/
theorem lnUnit_le_real_ulp : (lnUnit q : ℝ) ≤ 2 ^ (Int.log 2 (Real.log ((value64 q : ℚ) : ℝ)) - 52) := by
  have hbinade : binade (lnLow q) (2 ^ 128) ≠ 1 := fun hone => by
    have hslack := slack_lt_half_unit h1 h
    have htiny := normal_threshold_le
    rw [lnUnit, hone] at hslack
    rw [unit64_succ] at htiny
    linarith
  have hunits := Rat.cast_le (K := ℝ).2 (two_pow_mul_unit64_le (lnLow_ne_zero h1 h) (by positivity) hbinade)
  have hlow := (div_le_iff₀' (by positivity)).2 (lnLow_lnHigh_bounds h1.le).1
  have hpos : 0 < Real.log ((value64 q : ℚ) : ℝ) := lt_of_lt_of_le (by positivity) (le_log_value64 h1)
  rw [Nat.cast_pow, Nat.cast_ofNat, Rat.cast_div, Rat.cast_mul, Rat.cast_pow, Rat.cast_pow, Rat.cast_ofNat,
    Rat.cast_natCast] at hunits
  exact unit64_le_zpow_log hpos (hunits.trans hlow)

end

/-- At 1 the logarithm is exact. -/
theorem ln64_dist_of_one {q : Word64} (hq : Finite64 q) (h1 : value64 q = 1) :
    |((value64 (ln64 q) : ℚ) : ℝ) - Real.log ((value64 q : ℚ) : ℝ)| < ulp64 (ln64 q) := by
  obtain rfl : q = 0x3FF0000000000000#64 := value64_injective hq ⟨by decide, by decide⟩ (h1.trans value64_one.symm)
  rw [ln64_one, value64_zero, h1, Rat.cast_zero, Rat.cast_one, Real.log_one, sub_zero, abs_zero]
  exact Rat.cast_pos.2 (unit64_pos _)

/-- This block's logarithm meets what R127 asks of any (notes/assumptions/16.md). -/
theorem lnLegal_nil : LnLegal [] :=
  ⟨ln64_one, fun _ _ h1 h => ⟨ln64_finite h, (ln64_dist h1 h).le.trans (lnUnit_le_real_ulp h1 h)⟩⟩

/-- Settles O48: the rounding of the lower bound is off by half a unit and the slack, which is far less than half a unit. -/
theorem logarithmIsCorrectlyRoundedWhereCertified : Obligations.LogarithmIsCorrectlyRoundedWhereCertified := by
  refine ⟨ln64_one, lnLegal_nil, fun q hq h1 h => ⟨?_, ln64_isRne64_of_certified h h1⟩⟩
  obtain hone | hlt := h1.eq_or_lt
  · exact ln64_dist_of_one hq hone.symm
  · exact (ln64_dist hlt h).trans_le (Rat.cast_le.2 (lnUnit_le_ulp64 hlt h))

end Sys2Proof.Machine
end

section
/-!
PROOFS. Where a number stands in the grid of `2^59` units of `2^-128`, every rounding boundary from `2^-16` on is a line of that grid,
so numbers strictly inside one cell round alike.
-/

namespace Sys2Proof.Machine

/-! ### Rounding inside a cell -/

theorem roundHalfEven_mul_right (n d : Nat) {c : Nat} (hc : 0 < c) : roundHalfEven (n * c) (d * c) = roundHalfEven n d := by
  have hscale : ∀ m : Nat, 2 * (m * c) = 2 * m * c := fun m => (mul_assoc 2 m c).symm
  simp only [roundHalfEven, Nat.mul_mod_mul_right, Nat.mul_div_mul_right _ _ hc, hscale, Nat.mul_lt_mul_right hc]

/-- A fraction over an even multiple of `g` whose numerator is no multiple of `g` rounds by the cell it lies in: no tie arises. -/
theorem roundHalfEven_of_cell {n g k : Nat} (hg : 0 < g) (hn : 0 < n % g) :
    roundHalfEven n (2 * k * g) = if n / g % (2 * k) < k then n / g / (2 * k) else n / g / (2 * k) + 1 := by
  have hdiv : n / (2 * k * g) = n / g / (2 * k) := by rw [Nat.div_div_eq_div_mul, mul_comm]
  have hmod : n % (2 * k * g) = n % g + g * (n / g % (2 * k)) := by rw [mul_comm, Nat.mod_mul]
  have hlt := Nat.mod_lt n hg
  have hhalf : 2 * k * g = 2 * (g * k) := by ring
  rw [roundHalfEven, hdiv, hmod, hhalf]
  obtain hlow | hhigh := Nat.lt_or_ge (n / g % (2 * k)) k
  · have hle : g * (n / g % (2 * k)) + g ≤ g * k := Nat.mul_le_mul_left g hlow
    rw [if_pos hlow, if_pos (by omega)]
  · have hle : g * k ≤ g * (n / g % (2 * k)) := Nat.mul_le_mul_left g hhigh
    rw [if_neg (Nat.not_lt.2 hhigh), if_neg (by omega), if_pos (by omega)]

/-- The binade of `n * 2^-128`. -/
theorem binade_units {n : Nat} (h : 2 ^ 112 ≤ n) : binade n (2 ^ 128) = n.log2 + 895 := by
  have hlog : 112 ≤ n.log2 := (Nat.le_log2 (by omega)).2 h
  have hd : (2 ^ 128).log2 = 128 := Nat.log2_two_pow
  have hle : 2 ^ 128 <<< n.log2 ≤ n <<< 128 := by
    rw [shiftLeft_eq_mul, shiftLeft_eq_mul, mul_comm]
    exact Nat.mul_le_mul_right _ (Nat.log2_self_le (by omega))
  rw [binade, hd, if_pos hle]
  omega

/-- Inside a cell the highest bit is that of the cell. -/
theorem log2_eq_of_cell {n n' : Nat} (h : 2 ^ 112 ≤ n) (hcell : n / 2 ^ 59 = n' / 2 ^ 59) : n'.log2 = n.log2 := by
  obtain ⟨j, hj⟩ := Nat.exists_eq_add_of_le' (le_trans (by norm_num) ((Nat.le_log2 (by omega)).2 h) : 59 ≤ n.log2)
  have hlow : 2 ^ n.log2 ≤ n := Nat.log2_self_le (by omega)
  have hhigh : n < 2 ^ (n.log2 + 1) := Nat.lt_log2_self
  rw [hj, pow_add, ← Nat.le_div_iff_mul_le (by positivity), hcell, Nat.le_div_iff_mul_le (by positivity), ← pow_add] at hlow
  rw [hj, add_right_comm, pow_add, ← Nat.div_lt_iff_lt_mul (by positivity), hcell, Nat.div_lt_iff_lt_mul (by positivity),
    ← pow_add, add_right_comm] at hhigh
  rw [hj]
  exact (Nat.log2_eq_iff (by omega)).2 ⟨hlow, hhigh⟩

theorem two_pow_mul_two_pow {a b j c d : Nat} (h : a + b = j + 1 + c + d) :
    2 ^ a * 2 ^ b = 2 * 2 ^ j * 2 ^ c * 2 ^ d := by
  rw [← pow_succ', ← pow_add, ← pow_add, ← pow_add, h]

/-- Two numbers inside one cell round alike. -/
theorem rne64_eq_of_cell {n n' : Nat} (h : 2 ^ 112 ≤ n) (hcell : n / 2 ^ 59 = n' / 2 ^ 59) (hn : 0 < n % 2 ^ 59)
    (hn' : 0 < n' % 2 ^ 59) (hrange : n ≤ 2 ^ 128 * 2 ^ 1023) (hrange' : n' ≤ 2 ^ 128 * 2 ^ 1023) :
    rne64 n (2 ^ 128) = rne64 n' (2 ^ 128) := by
  have h' : 2 ^ 112 ≤ n' := by omega
  obtain ⟨j, hj⟩ := Nat.exists_eq_add_of_le ((Nat.le_log2 (by omega)).2 h)
  have hround : ∀ m, 0 < m % 2 ^ 59 → roundHalfEven (m * 2 ^ 1075) (2 ^ 128 * 2 ^ (n.log2 + 895))
      = if m / 2 ^ 59 % (2 * 2 ^ j) < 2 ^ j then m / 2 ^ 59 / (2 * 2 ^ j) else m / 2 ^ 59 / (2 * 2 ^ j) + 1 := fun m hm => by
    have hden : 2 ^ 128 * 2 ^ (n.log2 + 895) = 2 * 2 ^ j * 2 ^ 59 * 2 ^ 1075 := two_pow_mul_two_pow (by omega)
    rw [hden, roundHalfEven_mul_right _ _ (by positivity), roundHalfEven_of_cell (by positivity) hm]
  rw [(rne64_eq_encode64 (by omega) (by positivity) hrange).2, (rne64_eq_encode64 (by omega) (by positivity) hrange').2,
    binade_units h, binade_units h', log2_eq_of_cell h hcell, hround n hn, hround n' hn', hcell]

end Sys2Proof.Machine
end

section
/-!
PROOFS. The logarithm of every argument that ESTIMATE can form (42_estimator.md R123, R127). Up to a power of two such an argument
is 1 or `RNE64(2^16 / v)` with `2^15 < v < 2^16`. `ln(2^16 / v)` is followed from `v + 1` down to `v` by a short series, the
argument's own rounding is added, and each sum is found inside a cell of `2^59` units (`rne64_eq_of_cell`), where everything
rounds alike.
-/

namespace Sys2Proof.Machine

/-! ### What is computed -/

/-- `ln((v+1)/v)` from below by three terms, in units of `2^-128`. -/
def logStep (v : Nat) : Nat := artanhLowTerms 3 1 (2 * v + 1)

/-- The significand of `RNE64(2^16 / v)`, for `v` from `2^15` to `2^16`. -/
def quotientSignificand (v : Nat) : Nat := roundHalfEven (1 <<< 68) v

/-- The numbers from `x - 2^24` to `x + 2^32` lie inside one cell, from `2^112` on. -/
def clearOfGrid (x : Nat) : Bool :=
  decide (1 <<< 112 ≤ x) && decide (1 <<< 24 < x % 1 <<< 59) && decide (x % 1 <<< 59 + 1 <<< 32 < 1 <<< 59)

/-- So do those about `x + j * ln 2`, for each `j < n` with `2^j` a divisor of `v`. -/
def halvesClear : Nat → Nat → Nat → Bool
  | 0, _, _ => true
  | n + 1, v, x => clearOfGrid x && (decide (v % 2 = 1) || halvesClear n (v / 2) (x + artanhLow 1 3))

/-- The logarithm of `RNE64(2^16 / v)`, nearly, from a lower bound `F` of `ln(2^16 / v)`: the argument's rounding is added. -/
def quotientLog (v F : Nat) : Nat := F + (quotientSignificand v * v) <<< 60 - 1 <<< 128

/-- The check for `base + n - 1` down to `base`, `F` being the bound at `base + n`. The match has the next bound computed before
it is used. -/
def chainClear (base : Nat) : Nat → Nat → Bool
  | 0, _ => true
  | n + 1, F =>
    match F + logStep (base + n) with
    | 0 => false
    | F' + 1 => halvesClear 16 (base + n) (quotientLog (base + n) (F' + 1)) && chainClear base n (F' + 1)

/-- The check for the 256 values from `2^15 + 256 * t` on, begun with the model's own series. -/
def segmentClear (t : Nat) : Bool :=
  chainClear (1 <<< 15 + 256 * t) 256 (artanhLow (1 <<< 15 - 256 * (t + 1)) (3 * 1 <<< 15 + 256 * (t + 1)))

/-! ### The logarithm of `2^16 / v` -/

/-- `F` is a lower bound of `ln(2^16 / v)` that lacks little. -/
def LogBound (v F : Nat) : Prop :=
  (F : ℝ) ≤ 2 ^ 128 * Real.log (2 ^ 16 / v) ∧ 2 ^ 128 * Real.log (2 ^ 16 / v) ≤ F + (2 ^ 16 + 1 - v) * 2 ^ 15

theorem logRatio_step {v : Nat} (hv : 0 < v) : logRatio ((1 : Nat) / (2 * v + 1 : Nat)) = Real.log ((v + 1) / v) := by
  have hv' : (0 : ℝ) < v := Nat.cast_pos.2 hv
  rw [← logRatio_eq_log (by positivity) hv']
  congr 1
  push_cast
  ring

/-- Three terms suffice from `2^15` on. -/
theorem logStep_bounds {v : Nat} (hv : 2 ^ 15 ≤ v) :
    (logStep v : ℝ) ≤ 2 ^ 128 * Real.log ((v + 1) / v) ∧ 2 ^ 128 * Real.log ((v + 1) / v) ≤ logStep v + 2 ^ 15 := by
  obtain ⟨hlow, hhigh⟩ := artanhLowTerms_bounds (a := 1) (b := 2 * v + 1) (by omega) (by omega) 3
  rw [logRatio_step (by omega)] at hlow hhigh
  refine ⟨hlow, hhigh.trans (add_le_add_right ?_ _)⟩
  have hz : ((1 : Nat) : ℝ) / (2 * v + 1 : Nat) ≤ 1 / 2 ^ 16 := by
    rw [Nat.cast_one]
    refine one_div_le_one_div_of_le (by positivity) ?_
    exact_mod_cast (by omega : 2 ^ 16 ≤ 2 * v + 1)
  have hpow := pow_le_pow_left₀ (by positivity) hz (2 * 3 + 1)
  norm_num at hpow ⊢
  linarith

theorem LogBound.step {v F : Nat} (hv : 2 ^ 15 ≤ v) (h : LogBound (v + 1) F) : LogBound v (F + logStep v) := by
  obtain ⟨hlow, hhigh⟩ := h
  obtain ⟨hstep_low, hstep_high⟩ := logStep_bounds hv
  have hv' : (0 : ℝ) < v := Nat.cast_pos.2 (by omega)
  have hlog : Real.log (2 ^ 16 / v) = Real.log (2 ^ 16 / (v + 1 : Nat)) + Real.log ((v + 1) / v) := by
    rw [← Real.log_mul (by positivity) (by positivity)]
    congr 1
    push_cast
    field_simp
  push_cast at hlow hhigh hlog
  rw [LogBound, hlog]
  push_cast
  constructor <;> linarith

/-- The model's series gives a first bound. -/
theorem logBound_artanhLow {a b v : Nat} (ha : v + a = 2 ^ 16) (hb : b = 2 ^ 16 + v) (hv : 2 ^ 15 ≤ v) :
    LogBound v (artanhLow a b) := by
  obtain ⟨hlow, hhigh⟩ := artanhLow_bounds (a := a) (b := b) (by omega) (by omega)
  have hv' : (0 : ℝ) < v := Nat.cast_pos.2 (by omega)
  have hvle : (v : ℝ) ≤ 2 ^ 16 := mod_cast (by omega : v ≤ 2 ^ 16)
  have ha' : (a : ℝ) = 2 ^ 16 - v := eq_sub_of_add_eq' (mod_cast ha)
  have hratio : (a : ℝ) / b = (2 ^ 16 - v) / (2 ^ 16 + v) := by rw [ha', hb, Nat.cast_add, Nat.cast_pow, Nat.cast_ofNat]
  rw [hratio, logRatio_eq_log (by positivity) hv'] at hlow hhigh
  exact ⟨hlow, by linarith⟩

/-! ### The argument's rounding -/

/-- The rounded significand times `v` is within `v/2` of `2^68`. -/
theorem quotientSignificand_dist {v : Nat} (hpos : 0 < v) (hle : v ≤ 2 ^ 16) :
    |((quotientSignificand v * v : Nat) : ℝ) / 2 ^ 68 - 1| ≤ 1 / 2 ^ 53 := by
  have hv : (0 : ℝ) < v := Nat.cast_pos.2 hpos
  have hvle : (v : ℝ) ≤ 2 ^ 16 := mod_cast hle
  have hdist := (roundHalfEven_dist (1 <<< 68) hpos).1
  rw [← quotientSignificand, Nat.one_shiftLeft, Nat.cast_pow, Nat.cast_ofNat] at hdist
  have hscale : ((quotientSignificand v * v : Nat) : ℝ) / 2 ^ 68 - 1 = (quotientSignificand v - 2 ^ 68 / v) * (v / 2 ^ 68) := by
    rw [Nat.cast_mul]
    field_simp
  rw [hscale, abs_mul, abs_of_pos (by positivity : (0 : ℝ) < v / 2 ^ 68)]
  calc _ ≤ 1 / 2 * ((2 : ℝ) ^ 16 / 2 ^ 68) := by gcongr
    _ = 1 / 2 ^ 53 := by norm_num

theorem quotientSignificand_pos {v : Nat} (hpos : 0 < v) (hle : v ≤ 2 ^ 16) : 0 < quotientSignificand v :=
  le_roundHalfEven hpos (by rw [Nat.one_shiftLeft]; omega)

/-- Near 1 the logarithm is the distance from 1, but for its square. -/
theorem log_near_one {y : ℝ} (h : |y - 1| ≤ 1 / 2 ^ 53) : y - 1 - 1 / 2 ^ 105 ≤ Real.log y ∧ Real.log y ≤ y - 1 := by
  obtain ⟨hlow, hhigh⟩ := abs_le.1 h
  have hy : 1 / 2 ≤ y := by linarith
  have hpos : 0 < y := by linarith
  have hsq : (y - 1) ^ 2 ≤ (1 / 2 ^ 53) ^ 2 := sq_le_sq' hlow hhigh
  refine ⟨?_, Real.log_le_sub_one_of_pos hpos⟩
  have hinv : y⁻¹ ≤ 2 - y + 1 / 2 ^ 105 := by
    rw [inv_le_iff_one_le_mul₀ hpos]
    nlinarith
  linarith [Real.one_sub_inv_le_log_of_pos hpos]

theorem add_shift_sub_shift (F m : Nat) : F + m <<< 60 - 1 <<< 128 = F + m * 2 ^ 60 - 2 ^ 128 := by
  rw [shiftLeft_eq_mul m, shiftLeft_eq_mul 1, one_mul]

theorem quotientLog_eq (v F : Nat) : quotientLog v F = F + quotientSignificand v * v * 2 ^ 60 - 2 ^ 128 :=
  add_shift_sub_shift F _

theorem quotientLog_add {v F : Nat} (hpos : 0 < quotientLog v F) :
    quotientLog v F + 2 ^ 128 = F + quotientSignificand v * v * 2 ^ 60 := by
  rw [quotientLog_eq] at hpos ⊢
  exact Nat.sub_add_cancel (Nat.lt_of_sub_pos hpos).le

/-- The logarithm of the rounded significand, and how much its bound lacks. -/
theorem log_quotientSignificand_bounds {v F : Nat} (hlo : 2 ^ 15 ≤ v) (hhi : v < 2 ^ 16) (h : LogBound v F)
    (hpos : 0 < quotientLog v F) :
    quotientLog v F + 51 ≤ 2 ^ 128 * Real.log ((quotientSignificand v : ℝ) / 2 ^ 52) + 2 ^ 24 ∧
    2 ^ 128 * Real.log ((quotientSignificand v : ℝ) / 2 ^ 52) ≤ quotientLog v F + 2 ^ 31 := by
  obtain ⟨hlow, hhigh⟩ := h
  have hv : (2 ^ 15 : ℝ) ≤ v := mod_cast hlo
  have hdist := quotientSignificand_dist (v := v) (by omega) hhi.le
  obtain ⟨hnear_low, hnear_high⟩ := log_near_one hdist
  have hprod : (0 : ℝ) < ((quotientSignificand v * v : Nat) : ℝ) / 2 ^ 68 := by
    have := (abs_le.1 hdist).1
    linarith
  have hlog : Real.log ((quotientSignificand v : ℝ) / 2 ^ 52)
      = Real.log (2 ^ 16 / v) + Real.log (((quotientSignificand v * v : Nat) : ℝ) / 2 ^ 68) := by
    rw [← Real.log_mul (by positivity) hprod.ne', Nat.cast_mul]
    congr 1
    field_simp
  have hcast : (quotientLog v F : ℝ) = F + ((quotientSignificand v * v : Nat) : ℝ) * 2 ^ 60 - 2 ^ 128 := by
    have hnat := congrArg (Nat.cast (R := ℝ)) (quotientLog_add hpos)
    rw [Nat.cast_add, Nat.cast_add, Nat.cast_mul _ (2 ^ 60), Nat.cast_pow, Nat.cast_pow, Nat.cast_ofNat] at hnat
    linarith
  rw [hlog, hcast]
  constructor <;> linarith

/-! ### The checks -/

theorem clearOfGrid_iff (x : Nat) :
    clearOfGrid x = true ↔ 2 ^ 112 ≤ x ∧ 2 ^ 24 < x % 2 ^ 59 ∧ x % 2 ^ 59 + 2 ^ 32 < 2 ^ 59 := by
  simp only [clearOfGrid, Bool.and_eq_true, decide_eq_true_eq, shiftLeft_eq_mul, one_mul, and_assoc]

theorem clearOfGrid_of_halvesClear {n v x : Nat} (h : halvesClear n v x = true) {j : Nat} (hj : j < n) (hdvd : 2 ^ j ∣ v) :
    clearOfGrid (x + j * artanhLow 1 3) = true := by
  induction n generalizing v x j with
  | zero => exact absurd hj (Nat.not_lt_zero j)
  | succ n ih =>
    rw [halvesClear, Bool.and_eq_true, Bool.or_eq_true, decide_eq_true_eq] at h
    obtain ⟨hclear, hrest⟩ := h
    cases j with
    | zero => rwa [Nat.zero_mul]
    | succ j =>
      obtain ⟨m, rfl⟩ := hdvd
      have heven : 2 ^ (j + 1) * m = 2 * (2 ^ j * m) := by rw [pow_succ', mul_assoc]
      rw [heven] at hrest
      have hhalf := hrest.resolve_left (by omega)
      rw [Nat.mul_div_cancel_left _ two_pos] at hhalf
      have := ih hhalf (Nat.lt_of_succ_lt_succ hj) (Nat.dvd_mul_right _ _)
      rwa [Nat.succ_mul, add_comm (j * _), ← add_assoc]

/-- Every value of a checked chain has a bound that is checked. -/
theorem exists_logBound_of_chainClear {base n F : Nat} (hbase : 2 ^ 15 ≤ base) (hF : LogBound (base + n) F)
    (h : chainClear base n F = true) {v : Nat} (hlo : base ≤ v) (hhi : v < base + n) :
    ∃ F', LogBound v F' ∧ halvesClear 16 v (quotientLog v F') = true := by
  induction n generalizing F with
  | zero => omega
  | succ n ih =>
    have hstep : LogBound (base + n) (F + logStep (base + n)) := hF.step (by omega)
    rw [chainClear] at h
    split at h
    · exact absurd h Bool.false_ne_true
    · next F' hF' =>
      rw [hF'] at hstep
      rw [Bool.and_eq_true] at h
      obtain hv | rfl := Nat.lt_succ_iff_lt_or_eq.1 hhi
      · exact ih hstep h.2 hv
      · exact ⟨F' + 1, hstep, h.1⟩

/-! ### From the checks to the certificate -/

/-- What the checks of all segments say of every `v` between `2^15` and `2^16`. -/
def SegmentsClear : Prop := ∀ t, t < 128 → segmentClear t = true

theorem exists_logBound (hall : SegmentsClear) {v : Nat} (hlo : 2 ^ 15 ≤ v) (hhi : v < 2 ^ 16) :
    ∃ F, LogBound v F ∧ halvesClear 16 v (quotientLog v F) = true := by
  have hseg := hall ((v - 2 ^ 15) / 256) (by omega)
  rw [segmentClear, shiftLeft_eq_mul, one_mul] at hseg
  refine exists_logBound_of_chainClear (by omega) (logBound_artanhLow ?_ ?_ ?_) hseg ?_ ?_ <;> omega

theorem two_pow_regroup {a b c d e f g : Nat} (h : a + b + (c + d) = e + f + g) :
    2 ^ a * 2 ^ b * (2 ^ c * 2 ^ d) = 2 ^ e * 2 ^ f * 2 ^ g := by
  rw [← pow_add, ← pow_add, ← pow_add, ← pow_add, ← pow_add, h]

section
variable {B V j v : Nat} (hV : 2 ^ B * v = 2 ^ 16 * 2 ^ j * V) (hlo : 2 ^ 15 < v) (hhi : v < 2 ^ 16)
include hV hlo

theorem pos_of_scaled : 0 < V := by
  refine Nat.pos_of_ne_zero ?_
  rintro rfl
  have : 0 < 2 ^ B * v := by positivity
  omega

omit hlo in
/-- Both roundings are of one fraction. -/
theorem quotient_significand :
    roundHalfEven (2 ^ B * 2 ^ 1075) (V * 2 ^ (1023 + j)) = quotientSignificand v := by
  have hnum : 2 ^ B * 2 ^ 1075 * (2 ^ 16 * 2 ^ j) = 2 ^ 68 * (2 ^ B * 2 ^ (1023 + j)) :=
    (two_pow_regroup (by omega)).trans (mul_assoc _ _ _)
  have hden : V * 2 ^ (1023 + j) * (2 ^ 16 * 2 ^ j) = v * (2 ^ B * 2 ^ (1023 + j)) := by
    rw [mul_right_comm, mul_comm V, ← hV, ← mul_assoc, mul_comm v]
  rw [quotientSignificand, Nat.one_shiftLeft,
    ← roundHalfEven_mul_right _ (V * 2 ^ (1023 + j)) (c := 2 ^ 16 * 2 ^ j) (by positivity), hnum, hden,
    roundHalfEven_mul_right _ _ (by positivity)]

include hhi

theorem quotient_binade : binade (2 ^ B) V = 1023 + j := by
  have hVpos := (pos_of_scaled hV hlo).ne'
  have hlower : 2 ^ (j + 1022) < 2 ^ binade (2 ^ B) V := by
    have hlt := (Nat.mul_lt_mul_left (a := 2 ^ 16 * 2 ^ j) (by positivity)).2 (lt_binade (2 ^ B) hVpos)
    rw [← mul_assoc _ V, ← hV] at hlt
    refine Nat.lt_of_mul_lt_mul_left (a := 2 ^ B * 2 ^ 16) ?_
    calc 2 ^ B * 2 ^ 16 * 2 ^ (j + 1022) = 2 ^ 16 * 2 ^ j * (2 ^ B * 2 ^ 1022) :=
          (two_pow_regroup (by omega)).symm
      _ < 2 ^ B * v * 2 ^ binade (2 ^ B) V := hlt
      _ ≤ 2 ^ B * 2 ^ 16 * 2 ^ binade (2 ^ B) V := by gcongr
  have hge := (Nat.pow_lt_pow_iff_right one_lt_two).1 hlower
  have hupper : 2 ^ binade (2 ^ B) V < 2 ^ (j + 1024) := by
    have hle := Nat.mul_le_mul_left (2 ^ 16 * 2 ^ j) (binade_le (by positivity) (by omega : binade (2 ^ B) V ≠ 1))
    rw [← mul_assoc _ V, ← hV] at hle
    refine Nat.lt_of_mul_lt_mul_left (a := 2 ^ B * 2 ^ 15) ?_
    calc 2 ^ B * 2 ^ 15 * 2 ^ binade (2 ^ B) V < 2 ^ B * v * 2 ^ binade (2 ^ B) V := by gcongr
      _ ≤ 2 ^ 16 * 2 ^ j * (2 ^ B * 2 ^ 1023) := hle
      _ = 2 ^ B * 2 ^ 15 * 2 ^ (j + 1024) := two_pow_regroup (by omega)
  have hlt := (Nat.pow_lt_pow_iff_right one_lt_two).1 hupper
  omega

/-- In the binade of `2^j` the argument has the significand computed for `v`. -/
theorem value64_quotient (hB : B ≤ 16) : value64 (rne64 (2 ^ B) V) = quotientSignificand v / 2 ^ 52 * 2 ^ j := by
  have hpos := pos_of_scaled hV hlo
  obtain ⟨henc, heq⟩ := rne64_eq_encode64 (by positivity) hpos.ne' (quotient_range hB hpos)
  rw [quotient_binade hV hlo hhi, quotient_significand hV] at henc heq
  rw [heq, value64_encode64 henc, unit64_add, unit64_1023]
  ring

end

theorem log_value64_quotient {q : Word64} {k j : Nat} (hq : value64 q = k / 2 ^ 52 * 2 ^ j) (hk : 0 < k) :
    Real.log ((value64 q : ℚ) : ℝ) = Real.log ((k : ℝ) / 2 ^ 52) + j * Real.log 2 := by
  have hk' : (0 : ℝ) < k := Nat.cast_pos.2 hk
  rw [hq]
  push_cast
  rw [Real.log_mul (by positivity) (by positivity), Real.log_pow]

/-- The bounds of the logarithm of an argument lie in the cell that was checked. -/
theorem lnCertified_of_clear {q : Word64} {v F j : Nat} (h1 : 1 ≤ value64 q) (h : value64 q ≤ 65536) (hlo : 2 ^ 15 ≤ v)
    (hhi : v < 2 ^ 16) (hj : j < 16) (hq : value64 q = quotientSignificand v / 2 ^ 52 * 2 ^ j) (hF : LogBound v F)
    (hclear : halvesClear 16 v (quotientLog v F) = true) (hdvd : 2 ^ j ∣ v) : lnCertified q = true := by
  obtain ⟨hfirst, -, -⟩ := (clearOfGrid_iff _).1 (clearOfGrid_of_halvesClear hclear (j := 0) (by omega) (one_dvd v))
  obtain ⟨hx, hx_low, hx_high⟩ := (clearOfGrid_iff _).1 (clearOfGrid_of_halvesClear hclear hj hdvd)
  obtain ⟨hsig_low, hsig_high⟩ := log_quotientSignificand_bounds hlo hhi hF (by omega)
  obtain ⟨htwo_low, htwo_high⟩ := artanhLow_bounds (a := 1) (b := 3) (by norm_num) le_rfl
  obtain ⟨hlow, hhigh⟩ := lnLow_lnHigh_bounds h1
  rw [logRatio_one_third] at htwo_low htwo_high
  have hslack := lnSlack_le h
  have hlog := log_value64_quotient hq (quotientSignificand_pos (by omega) hhi.le)
  have hj_low := mul_le_mul_of_nonneg_left htwo_low (Nat.cast_nonneg (α := ℝ) j)
  have hj_high := mul_le_mul_of_nonneg_left htwo_high (Nat.cast_nonneg (α := ℝ) j)
  have hj_le : (j : ℝ) ≤ 16 := mod_cast hj.le
  have hslack_real : (lnHigh q : ℝ) ≤ lnLow q + 51 := mod_cast Nat.add_le_add_left (lnSlack_le h) (lnLow q)
  rw [hlog] at hlow hhigh
  have hlnLow : (quotientLog v F + j * artanhLow 1 3 : ℝ) ≤ lnLow q + 2 ^ 24 := by linarith
  have hlnHigh : (lnHigh q : ℝ) ≤ quotientLog v F + j * artanhLow 1 3 + 2 ^ 32 := by linarith
  have hlnLow' : quotientLog v F + j * artanhLow 1 3 ≤ lnLow q + 2 ^ 24 := by exact_mod_cast hlnLow
  have hlnHigh' : lnHigh q ≤ quotientLog v F + j * artanhLow 1 3 + 2 ^ 32 := by exact_mod_cast hlnHigh
  have hle : lnLow q ≤ lnHigh q := Nat.le_add_right _ _
  have hround := rne64_eq_of_cell (n := lnLow q) (n' := lnHigh q) (by omega) (by omega) (by omega) (by omega) (lnLow_range h)
    (lnHigh_range h)
  rwa [lnCertified, decide_eq_true_eq, Config.lnBits, Nat.one_shiftLeft]

/-- The argument of each `V` is that of a `v` from `2^15` on, up to a power of two. -/
theorem lnCertified_of_scaled (hall : SegmentsClear) {B V j v : Nat} (hB : B ≤ 16) (hpos : 0 < V) (hle : V ≤ 2 ^ B)
    (hV : 2 ^ B * v = 2 ^ 16 * 2 ^ j * V) (hlo : 2 ^ 15 < v) (hhi : v < 2 ^ 16) (hj : j < 16) (hdvd : 2 ^ j ∣ v) :
    lnCertified (rne64 (2 ^ B) V) = true := by
  obtain ⟨F, hF, hclear⟩ := exists_logBound hall hlo.le hhi
  exact lnCertified_of_clear (one_le_quotient hB hpos hle) (quotient_le_65536 hB hpos) hlo.le hhi hj
    (value64_quotient hV hlo hhi hB) hF hclear hdvd

/-! ### The checks themselves -/

/-- Powers of two have no rounding and no series: the model's certificate is evaluated. -/
theorem lnCertified_two_pow {k : Nat} (hk : k ≤ 16) : lnCertified (rne64 (2 ^ k) 1) = true := by
  interval_cases k <;> decide +kernel

/-- The arguments that are powers of two. -/
theorem lnCertified_of_dvd {B V k : Nat} (hB : B ≤ 16) (hk : k ≤ 16) (hpos : 0 < V) (hV : 2 ^ B = 2 ^ k * V) :
    lnCertified (rne64 (2 ^ B) V) = true := by
  have hcast : (2 ^ B : ℚ) = 2 ^ k * V := mod_cast hV
  have hvalue : value64 (rne64 (2 ^ B) V) = 2 ^ k := by
    refine value64_rne64_eq hpos.ne' (quotient_range hB hpos) (representable64_two_pow hk) ?_
    rw [Nat.cast_pow, Nat.cast_ofNat, hcast, mul_div_cancel_right₀ _ (Nat.cast_ne_zero.2 hpos.ne')]
  have hone : value64 (rne64 (2 ^ k) 1) = 2 ^ k := by
    refine value64_rne64_eq one_ne_zero (quotient_range hk one_pos) (representable64_two_pow hk) ?_
    rw [Nat.cast_pow, Nat.cast_ofNat, Nat.cast_one, div_one]
  rw [value64_injective (quotient_finite hB hpos) (quotient_finite hk one_pos) (hvalue.trans hone.symm)]
  exact lnCertified_two_pow hk

/-- The kernel evaluates the 32768 sums, 256 at a time: each evaluation is a declaration of its own, and small. -/
theorem segmentsClear : SegmentsClear := by
  intro t ht
  interval_cases t <;> decide +kernel

theorem lnCertified_quotient {B V : Nat} (hB : B ≤ 16) (hpos : 0 < V) (hle : V ≤ 2 ^ B) :
    lnCertified (rne64 (2 ^ B) V) = true := by
  have hpow : 2 ^ B * 2 ^ (16 - B) = 2 ^ 16 := by rw [← pow_add, Nat.add_sub_cancel' hB]
  have hscaled : V * 2 ^ (16 - B) ≤ 2 ^ 16 := hpow ▸ Nat.mul_le_mul_right _ hle
  have hne : V * 2 ^ (16 - B) ≠ 0 := by positivity
  have hlow : 2 ^ (V * 2 ^ (16 - B)).log2 ≤ V * 2 ^ (16 - B) := Nat.log2_self_le hne
  have hhigh : V * 2 ^ (16 - B) < 2 ^ ((V * 2 ^ (16 - B)).log2 + 1) := Nat.lt_log2_self
  generalize (V * 2 ^ (16 - B)).log2 = l at hlow hhigh
  have hl : l ≤ 16 := (Nat.pow_le_pow_iff_right one_lt_two).1 (hlow.trans hscaled)
  obtain heq | hlt := hlow.eq_or_lt
  · refine lnCertified_of_dvd hB (k := 16 - l) (Nat.sub_le _ _) hpos (Nat.eq_of_mul_eq_mul_right (Nat.two_pow_pos (16 - B)) ?_)
    rw [hpow, mul_assoc, ← heq, ← pow_add, Nat.sub_add_cancel hl]
  · have hl' : l < 16 := (Nat.pow_lt_pow_iff_right one_lt_two).1 (hlt.trans_le hscaled)
    have hsplit : 2 ^ l * 2 ^ (15 - l) = 2 ^ 15 := by rw [← pow_add, Nat.add_sub_cancel' (by omega)]
    refine lnCertified_of_scaled segmentsClear hB hpos hle (j := 15 - l) (v := V * 2 ^ (16 - B) * 2 ^ (15 - l)) ?_ ?_ ?_
      (by omega) (Nat.dvd_mul_left _ _)
    · rw [← hpow]
      ring
    · exact hsplit ▸ Nat.mul_lt_mul_of_pos_right hlt (by positivity)
    · calc V * 2 ^ (16 - B) * 2 ^ (15 - l) < 2 ^ (l + 1) * 2 ^ (15 - l) := Nat.mul_lt_mul_of_pos_right hhigh (by positivity)
        _ = 2 ^ 16 := by rw [← pow_add]; congr 1; omega

/-- Settles O52: the checks certify every argument, and a certified logarithm is correctly rounded. -/
theorem everyLogarithmTakenIsCorrectlyRounded : Obligations.EveryLogarithmTakenIsCorrectlyRounded := by
  intro B V _ hB hpos hle
  have hcert := lnCertified_quotient hB hpos hle
  exact ⟨hcert, ln64_isRne64_of_certified (quotient_le_65536 hB hpos) (one_le_quotient hB hpos hle) hcert⟩

/-- Settles O49: these are the arguments of five of the thirteen precisions. -/
theorem logarithmsUpToPrecisionEightAreCertified : Obligations.LogarithmsUpToPrecisionEightAreCertified :=
  fun _ _ _ hB hpos hle => lnCertified_quotient (hB.trans (by decide)) hpos hle

end Sys2Proof.Machine
end
